-- ==== Sys2Proof/Word.lean ====
section
/-! DEFINITION. The value types of the block: 00_scope.md rules R9 and R10 (bytes and unsigned integers of fixed
width, bit 0 the least significant), 10_state.md rules R15 and R16 (the 11-bit counters). -/

namespace Sys2Proof

/-- A byte, `u8` (R9). -/
abbrev Byte := BitVec 8

/-- A 16-bit unsigned value, `u16` (R10): the CRC register, the flags field, the checksum. -/
abbrev Half := BitVec 16

/-- A 32-bit unsigned value, `u32` (R10). -/
abbrev Word := BitVec 32

/-- The width of the counters `size` and `rem` (R15, R16; the spec's decision D5, log 13). -/
abbrev Count := BitVec 11

end Sys2Proof
end

