-- ==== Sys2Proof/Config.lean ====
section
/-! DEFINITION. The fixed parameters of the block, 00_scope.md rule R7. R8: "A model takes no parameter", so
nothing here is open and the model has no free value. -/

namespace Sys2Proof

/-- `START`, the start marker. -/
abbrev Config.start : Byte := 0xAA

/-- `BUF_CAP`, the capacity of the receive buffer in bytes. -/
abbrev Config.bufCap : Nat := 1024

/-- `REM_LIMIT`, the largest accepted value of the remaining-bytes count (R7; 90_conflicts.md C2). -/
abbrev Config.remLimit : Nat := 1019

/-- `HDR_BYTES`, the bytes stored before the payload phase. -/
abbrev Config.hdrBytes : Nat := 3

/-- `CRC_BYTES`, the size of the checksum field. -/
abbrev Config.crcBytes : Nat := 2

/-- `CRC_INIT`, the value every evaluation of the CRC starts from. -/
abbrev Config.crcInit : Half := 0

/-- `CMD_OFF`, the buffer offset of the command id. -/
abbrev Config.cmdOff : Nat := 3

/-- `DATA_OFF`, the buffer offset of the first data byte. -/
abbrev Config.dataOff : Nat := 4

/-- `STR_WIN`, the size of the string field window. -/
abbrev Config.strWin : Nat := 16

/-- `LEN_SHIFT`, the lowest bit of the length field in flags. -/
abbrev Config.lenShift : Nat := 6

/-- `LEN_MAX`, the largest value of the 10-bit length field. -/
abbrev Config.lenMax : Nat := 1023

end Sys2Proof
end

