-- ==== Sys2Proof/Syntax.lean ====
section
/-! DEFINITION. The instruction set: one constructor per row of spec/opcode_table.json. The thirteen host operations
and the reserved codes (format HOSTOP, 30_encoding.md rules R52, R54), the two pseudo-operations (PSEUDO, R56), the
seven cases of the parser's byte decode (RXBYTE, R57) and the wire frame (FRAME, R40, R51). -/

namespace Sys2Proof

/-- The state tag's four values (10_state.md R14). They stand here because the byte decode of R57 selects on them. -/
inductive ParseState where
  | awaitStart
  | readLenLow
  | readLenHigh
  | readPayload
  deriving DecidableEq, Repr

/-- The numeric code of a state tag (R14; the spec's decision D6, log 13). -/
def ParseState.code : ParseState → BitVec 2
  | .awaitStart => 0
  | .readLenLow => 1
  | .readLenHigh => 2
  | .readPayload => 3

/-- The seven rows of the byte decode: what one fed byte does (R57, R73 to R79). -/
inductive RxRow where
  | start
  | drop
  | lenLow
  | lenHigh
  | append
  | lastOk
  | lastBad
  deriving DecidableEq, Repr

inductive Instr where
  /-- RESET (R71). -/
  | reset
  /-- FEED b (R72). -/
  | feed (b : Byte)
  /-- CRC16 s (R64). -/
  | crc16 (s : List Byte)
  /-- ENCODE cmd, w, data (R105). -/
  | encode (cmd : Byte) (w : Bool) (data : List Byte)
  /-- GET.CMD (R91). -/
  | getCmd
  /-- GET.U8 (R92). -/
  | getU8
  /-- GET.I8 (R93). -/
  | getI8
  /-- GET.U16 (R94). -/
  | getU16
  /-- GET.I16 (R95). -/
  | getI16
  /-- GET.U32 (R96). -/
  | getU32
  /-- GET.I32 (R97). -/
  | getI32
  /-- GET.STR (R98). -/
  | getStr
  /-- GET.DATA n (R99). -/
  | getData (n : Nat)
  /-- The reserved code 0x0D (R54). -/
  | reservedD
  /-- The reserved code 0x0E (R54). -/
  | reservedE
  /-- The reserved code 0x0F (R54). -/
  | reservedF
  /-- A code byte whose high four bits are not all 0 (R54). -/
  | reservedHigh (code : Byte)
  /-- FEEDS [b0 .. bk] (R56). -/
  | feeds (bs : List Byte)
  /-- RECV [b0 .. bk] (R56). -/
  | recv (bs : List Byte)
  /-- RX.START: the byte 0xAA in AwaitStart (R74). -/
  | rxStart
  /-- RX.DROP: another byte in AwaitStart (R73). -/
  | rxDrop (b : Byte)
  /-- RX.LENLOW: a byte in ReadLenLow (R75). -/
  | rxLenLow (b : Byte)
  /-- RX.LENHIGH: a byte in ReadLenHigh (R76). -/
  | rxLenHigh (b : Byte)
  /-- RX.APPEND: a byte in ReadPayload that is not the last (R77). -/
  | rxAppend (b : Byte)
  /-- RX.LAST.OK: the last byte of a frame whose checksum matches (R78). -/
  | rxLastOk (b : Byte)
  /-- RX.LAST.BAD: the last byte of a frame whose checksum does not match (R79). -/
  | rxLastBad (b : Byte)
  /-- FRAME: a frame on the wire (R40, R41, R51). The length field is the number of counted bytes (command id, then
  data), so it is not stored a second time (log 9). -/
  | frame (w : Bool) (reserved : BitVec 5) (counted : List Byte) (checksum : Half)
  deriving DecidableEq, Repr

/-- The four formats of opcode_table.json's rows (30_encoding.md). -/
inductive Format where
  | hostop
  | pseudo
  | rxbyte
  | frame
  deriving DecidableEq, Repr

/-- What the host presents to the block, as bytes (log 1): bytes of an operation stream (R53), one byte offered to the
parser's byte decode (R57), or the bytes of a frame on the wire (R40). -/
inductive Item where
  | ops (bytes : List Byte)
  | rx (b : Byte)
  | wire (bytes : List Byte)
  deriving DecidableEq, Repr

end Sys2Proof
end

