-- ==== Sys2Proof/WellFormed.lean ====
section
/-! DEFINITION. The checks an instruction meets when it has an encoding: the 16-bit counts of the operation stream
(30_encoding.md R53), the reserved code bytes (R54), the byte classes of the byte decode (R57), the 10-bit length field
(R41). An operand that the operation itself refuses (ENCODE above 1022 bytes, GET.DATA beyond the buffer) is still well
formed: the host can issue it, and the operation's meaning refuses it (log 15). -/

namespace Sys2Proof

/-- The largest count the operation stream's 16-bit count field carries (R53). -/
abbrev maxCount : Nat := 65535

/-- `i` has an encoding in its row's format. -/
def Instr.wf : Instr → Bool
  | .crc16 s => s.length ≤ maxCount
  | .encode _ _ data => data.length ≤ maxCount
  | .getData n => n ≤ maxCount
  | .reservedHigh code => 16 ≤ code.toNat
  | .feeds bs => bs ≠ []
  | .recv bs => bs ≠ []
  | .rxDrop b => b ≠ Config.start
  | .frame _ _ counted _ => counted.length ≤ Config.lenMax
  | .reset | .feed _ | .getCmd | .getU8 | .getI8 | .getU16 | .getI16 | .getU32 | .getI32 | .getStr => true
  | .reservedD | .reservedE | .reservedF => true
  | .rxStart | .rxLenLow _ | .rxLenHigh _ | .rxAppend _ | .rxLastOk _ | .rxLastBad _ => true

end Sys2Proof
end

