-- ==== Sys2Proof/Decode.lean ====
section
/-! DEFINITION. Byte order and bit fields, the decoders of the three encoded formats (operation stream 30_encoding.md
R53, R54; byte decode R57; wire frame R40 to R45), the encoder, and the reading of a bare opcode-table word. Every
decoder is total and rejects by name. -/

namespace Sys2Proof

/-! ### Byte order (20_memory.md R30: the byte at the lower position is the less significant) -/

/-- The low byte of a 16-bit value. -/
def lowByte (v : Half) : Byte := v.setWidth 8

/-- The high byte of a 16-bit value. -/
def highByte (v : Half) : Byte := (v >>> 8).setWidth 8

/-- The 16-bit value whose low byte is `lo` and whose high byte is `hi`: `lo | (hi << 8)`, widened before the shift
(70_reset_and_hazards.md R139). -/
def half (lo hi : Byte) : Half := lo.setWidth 16 ||| (hi.setWidth 16 <<< 8)

/-- A 16-bit value as its two bytes, low byte first. -/
def halfBytes (v : Half) : List Byte := [lowByte v, highByte v]

/-- A count as the operation stream carries it: 16 bits, low byte first (R53). -/
def countBytes (n : Nat) : List Byte := halfBytes (BitVec.ofNat 16 n)

/-! ### The flags field of a frame (R41, R42, R43) -/

/-- Flags from the length field, the five reserved bits and the write flag (R41). -/
def flagsWord (len : Nat) (reserved : BitVec 5) (w : Bool) : Half :=
  (BitVec.ofNat 16 len <<< Config.lenShift) ||| (reserved.setWidth 16 <<< 1) ||| (if w then 1 else 0)

/-- The length field of the two stored flag bytes: `(lo | (hi << 8)) >> 6` (R43). -/
def lengthField (lo hi : Byte) : Nat := (half lo hi >>> Config.lenShift).toNat

/-- The write flag of the two flag bytes: bit 0 (R41). -/
def writeFlag (lo : Byte) : Bool := lo.getLsbD 0

/-- The five reserved bits 5..1 of the flags (R41, R46). -/
def reservedBits (lo : Byte) : BitVec 5 := (lo >>> 1).setWidth 5

/-! ### Decoding -/

/-- Why a run of bytes is no instruction of its format. -/
inductive DecodeError where
  /-- The bytes end inside the instruction. Safe (log 10). -/
  | truncated
  /-- ENCODE's write-flag byte is neither 00 nor 01 (R53). Safe (log 10). -/
  | badWriteFlag (ww : Byte)
  /-- A frame does not begin with the start marker (R40). Safe (log 10). -/
  | noStart
  deriving DecidableEq, Repr

/-- The first `n` bytes and the rest, or `truncated`. -/
def splitBytes (n : Nat) (bs : List Byte) : Except DecodeError (List Byte × List Byte) :=
  if bs.length < n then .error .truncated else .ok (bs.take n, bs.drop n)

/-- A 16-bit count, low byte first, and that many bytes (R53). -/
def decodeCounted : List Byte → Except DecodeError (List Byte × List Byte)
  | lo :: hi :: bs => splitBytes (half lo hi).toNat bs
  | _ => .error .truncated

/-- FEED's operand: one byte. -/
def decodeFeed : List Byte → Except DecodeError (Instr × List Byte)
  | b :: bs => .ok (.feed b, bs)
  | [] => .error .truncated

/-- CRC16's operand: a counted sequence. -/
def decodeCrc (bs : List Byte) : Except DecodeError (Instr × List Byte) :=
  match decodeCounted bs with
  | .ok (s, rest) => .ok (.crc16 s, rest)
  | .error e => .error e

/-- ENCODE's operands: command id, write-flag byte 00 or 01, counted data. -/
def decodeEncode : List Byte → Except DecodeError (Instr × List Byte)
  | cmd :: ww :: bs =>
    if ww = 0 ∨ ww = 1 then
      match decodeCounted bs with
      | .ok (data, rest) => .ok (.encode cmd (ww = 1) data, rest)
      | .error e => .error e
    else .error (.badWriteFlag ww)
  | _ => .error .truncated

/-- GET.DATA's operand: a 16-bit count. -/
def decodeGetData : List Byte → Except DecodeError (Instr × List Byte)
  | lo :: hi :: bs => .ok (.getData (half lo hi).toNat, bs)
  | _ => .error .truncated

/-- One operation of the operation stream and the bytes after it (R53, R54). -/
def decodeOp : List Byte → Except DecodeError (Instr × List Byte)
  | [] => .error .truncated
  | c :: bs =>
    match c.toNat with
    | 0 => .ok (.reset, bs)
    | 1 => decodeFeed bs
    | 2 => decodeCrc bs
    | 3 => decodeEncode bs
    | 4 => .ok (.getCmd, bs)
    | 5 => .ok (.getU8, bs)
    | 6 => .ok (.getI8, bs)
    | 7 => .ok (.getU16, bs)
    | 8 => .ok (.getI16, bs)
    | 9 => .ok (.getU32, bs)
    | 10 => .ok (.getI32, bs)
    | 11 => .ok (.getStr, bs)
    | 12 => decodeGetData bs
    | 13 => .ok (.reservedD, bs)
    | 14 => .ok (.reservedE, bs)
    | 15 => .ok (.reservedF, bs)
    | _ => .ok (.reservedHigh c, bs)

/-- The byte decode (R57): the row a fed byte selects. In ReadPayload the outcome depends on whether this is the last
byte (`rem` = 1) and on whether the checksum matches (R72). -/
def decodeRx (st : ParseState) (last matched : Bool) (b : Byte) : RxRow :=
  match st with
  | .awaitStart => if b = Config.start then .start else .drop
  | .readLenLow => .lenLow
  | .readLenHigh => .lenHigh
  | .readPayload => if last then (if matched then .lastOk else .lastBad) else .append

/-- The instruction a row of the byte decode stands for. -/
def RxRow.instr (row : RxRow) (b : Byte) : Instr :=
  match row with
  | .start => .rxStart
  | .drop => .rxDrop b
  | .lenLow => .rxLenLow b
  | .lenHigh => .rxLenHigh b
  | .append => .rxAppend b
  | .lastOk => .rxLastOk b
  | .lastBad => .rxLastBad b

/-- A frame's counted bytes and checksum, once the length field is known (R44, R45). -/
def decodeBody (lo hi : Byte) (bs : List Byte) : Except DecodeError (Instr × List Byte) :=
  match splitBytes (lengthField lo hi) bs with
  | .ok (counted, ck0 :: ck1 :: rest) =>
    .ok (.frame (writeFlag lo) (reservedBits lo) counted (half ck0 ck1), rest)
  | .ok _ => .error .truncated
  | .error e => .error e

/-- A frame on the wire and the bytes after it (R40, R51). -/
def decodeFrame : List Byte → Except DecodeError (Instr × List Byte)
  | [] => .error .truncated
  | s :: bs =>
    if s = Config.start then
      match bs with
      | lo :: hi :: body => decodeBody lo hi body
      | _ => .error .truncated
    else .error .noStart

/-! ### Encoding -/

/-- The wire bytes of a frame: start marker, flags, counted bytes, checksum (R40, R41). -/
def frameBytes (w : Bool) (reserved : BitVec 5) (counted : List Byte) (checksum : Half) : List Byte :=
  Config.start :: halfBytes (flagsWord counted.length reserved w) ++ counted ++ halfBytes checksum

/-- The FEED operations that feeding `bs` stands for (R56). -/
def feedOps : List Byte → List Byte
  | [] => []
  | b :: bs => 0x01 :: b :: feedOps bs

/-- The bytes of an instruction in its row's format: R53 for an operation, the byte itself for a row of the byte decode
(R57), the wire bytes for a frame (R40). A pseudo-operation has no bytes of its own; it is written as its expansion
(R56). -/
def encodeBytes : Instr → List Byte
  | .reset => [0x00]
  | .feed b => [0x01, b]
  | .crc16 s => 0x02 :: countBytes s.length ++ s
  | .encode cmd w data => 0x03 :: cmd :: (if w then 1 else 0) :: countBytes data.length ++ data
  | .getCmd => [0x04]
  | .getU8 => [0x05]
  | .getI8 => [0x06]
  | .getU16 => [0x07]
  | .getI16 => [0x08]
  | .getU32 => [0x09]
  | .getI32 => [0x0A]
  | .getStr => [0x0B]
  | .getData n => 0x0C :: countBytes n
  | .reservedD => [0x0D]
  | .reservedE => [0x0E]
  | .reservedF => [0x0F]
  | .reservedHigh code => [code]
  | .feeds bs => feedOps bs
  | .recv bs => 0x00 :: feedOps bs
  | .rxStart => [Config.start]
  | .rxDrop b => [b]
  | .rxLenLow b => [b]
  | .rxLenHigh b => [b]
  | .rxAppend b => [b]
  | .rxLastOk b => [b]
  | .rxLastBad b => [b]
  | .frame w reserved counted checksum => frameBytes w reserved counted checksum

/-- What the host presents so that the block runs `i`. -/
def encode (i : Instr) : Item :=
  match i with
  | .rxStart => .rx Config.start
  | .rxDrop b => .rx b
  | .rxLenLow b => .rx b
  | .rxLenHigh b => .rx b
  | .rxAppend b => .rx b
  | .rxLastOk b => .rx b
  | .rxLastBad b => .rx b
  | .frame w reserved counted checksum => .wire (frameBytes w reserved counted checksum)
  | _ => .ops (encodeBytes i)

/-- The format of an instruction's row (30_encoding.md). -/
def Instr.format : Instr → Format
  | .feeds _ | .recv _ => .pseudo
  | .rxStart | .rxDrop _ | .rxLenLow _ | .rxLenHigh _ | .rxAppend _ | .rxLastOk _ | .rxLastBad _ => .rxbyte
  | .frame _ _ _ _ => .frame
  | .reset | .feed _ | .crc16 _ | .encode _ _ _ | .getCmd | .getU8 | .getI8 | .getU16 | .getI16 | .getU32 | .getI32
  | .getStr | .getData _ | .reservedD | .reservedE | .reservedF | .reservedHigh _ => .hostop

/-! ### Bare table words -/

/-- The `n` lowest bytes of `w`, the least significant first. -/
def wordBytes : Nat → Nat → List Byte
  | 0, _ => []
  | n + 1, w => BitVec.ofNat 8 w :: wordBytes n (w / 256)

/-- Byte `k`, or 0 where the bytes end before it. -/
def byteAt (bs : List Byte) (k : Nat) : Byte := bs.getD k 0

/-- How many bytes the operation that `bs` begins takes, absent bytes read as 0 (R53). -/
def opLength (bs : List Byte) : Nat :=
  match (byteAt bs 0).toNat with
  | 1 => 2
  | 2 => 3 + (half (byteAt bs 1) (byteAt bs 2)).toNat
  | 3 => 5 + (half (byteAt bs 3) (byteAt bs 4)).toNat
  | 12 => 3
  | _ => 1

/-- How many bytes the frame that `bs` begins takes, absent bytes read as 0: `5 + L` (R44). -/
def frameLength (bs : List Byte) : Nat := 5 + lengthField (byteAt bs 1) (byteAt bs 2)

/-- `bs` with zero bytes after it up to length `n`. -/
def padTo (n : Nat) (bs : List Byte) : List Byte := bs ++ List.replicate (n - bs.length) 0

/-- What the host presents for a bare word of the opcode table (log 14): the single byte 0xAA is the RXBYTE row's, a
longer word that begins with 0xAA is a frame's, every other word is an operation's. -/
def tableItem (nbits w : Nat) : Item :=
  match wordBytes ((nbits + 7) / 8) w with
  | [] => .ops []
  | c :: bs =>
    if c = Config.start then
      if bs = [] then .rx c else .wire (padTo (frameLength (c :: bs)) (c :: bs))
    else .ops (padTo (opLength (c :: bs)) (c :: bs))

/-- The instruction of a decoding, or none. -/
def decoded (r : Except DecodeError (Instr × List Byte)) : Option Instr :=
  match r with
  | .ok (i, _) => some i
  | .error _ => none

/-- The instruction a bare word of the opcode table decodes to; a byte of the RXBYTE format is decoded as the first
byte fed after reset, in AwaitStart (log 14). -/
def decodeTableWord (nbits w : Nat) : Option Instr :=
  match tableItem nbits w with
  | .ops bs => decoded (decodeOp bs)
  | .rx b => some ((decodeRx .awaitStart false false b).instr b)
  | .wire bs => decoded (decodeFrame bs)

end Sys2Proof
end

