-- ==== Sys2Proof/Machine/State.lean ====
section
/-! DEFINITION. The state: the block's four items (10_state.md R13), the result of the operation just performed (R20,
R52) and what the host has still to issue (R25, log 1); the reasons a step can stop; the state after reset (R24). -/

namespace Sys2Proof.Machine

/-- The receive buffer: the written bytes as (index, byte) pairs, indices strictly rising. An index that is not listed
is unwritten: it holds no value (10_state.md R18; log 5). -/
abbrev Memory := List Host.Cell

/-- The mutually exclusive outcomes of one FEED (10_state.md R20; 60_exceptions.md R114). `crcErr` and `lenErr` are the
spec's diagnostic outputs (decision D16, log 4). -/
inductive Status where
  | none
  | complete
  | crcErr
  | lenErr
  deriving DecidableEq, Repr

/-- What an operation hands to the host (30_encoding.md R52). -/
inductive Result where
  /-- No result: after reset, after RESET, and while no operation is issued. -/
  | nothing
  /-- FEED's outputs. -/
  | fed (status : Status)
  /-- The outputs of the FEEDs that a pseudo-operation or a wire frame stands for, in order (R56). -/
  | feds (statuses : List Status)
  /-- CRC16's `u16`. -/
  | crc (v : Half)
  /-- ENCODE's frame. -/
  | frame (bytes : List Byte)
  | u8 (v : Byte)
  | u16 (v : Half)
  | u32 (v : Word)
  /-- A signed 8-bit number, -128 to 127 (42_accessors.md R93). -/
  | i8 (v : Int)
  /-- A signed 16-bit number (R95). -/
  | i16 (v : Int)
  /-- A signed 32-bit number (R97). -/
  | i32 (v : Int)
  /-- GET.STR's `n` and `n` bytes (R98). -/
  | str (n : Nat) (bytes : List Byte)
  /-- GET.DATA's bytes (R99). -/
  | data (bytes : List Byte)
  deriving DecidableEq, Repr

structure State where
  /-- The state tag (R14). -/
  st : ParseState
  /-- The fill size (R15). -/
  size : Count
  /-- The remaining count (R16). -/
  rem : Count
  /-- The receive buffer (R17). -/
  buf : Memory
  /-- The result of the operation just performed, valid for that step only (R20; log 3). Not state of the block. -/
  out : Result
  /-- What the host has still to issue, first to last (R25; log 1). Not state of the block. -/
  port : List Item
  deriving DecidableEq, Repr

/-- Why the machine stops with a fault. The block itself raises nothing (60_exceptions.md R113): each fault is the
model's, in a state that the invariant of R23 rules out, where no rule of R72 to R79 says what FEED does (log 6). -/
inductive Fault where
  /-- FEED, the rows of the byte decode, FEEDS, RECV and FRAME: a store at an index above 1023, which 20_memory.md R35
  forbids. Safe. -/
  | indexOutsideBuffer (index : Nat)
  /-- The same: a byte in ReadPayload with `rem` = 0; R77 takes `rem` > 1, R78 and R79 take `rem` = 1. Safe. -/
  | nothingRemaining
  /-- The same: a last byte when fewer than two bytes are stored, so that `buf[0 .. size-2)` does not exist. Safe. -/
  | frameTooShort
  deriving DecidableEq, Repr

/-- Why an operation has no result (60_exceptions.md R118): the block's state is unchanged. -/
inductive Refusal where
  /-- exec's arm of an instruction that has no meaning yet. Safe. -/
  | notModelled (mnemonic : String)
  /-- RESERVED.D, .E, .F, .HIGH: the code names no operation (R54). Safe. -/
  | reservedCode (code : Byte)
  /-- ENCODE with more than 1022 data bytes (R106). Safe. -/
  | dataTooLong (length : Nat)
  /-- GET.*: a byte the result depends on is unwritten (R18, R90). FEED: the same, only in states the invariant of R23
  rules out (log 6). Safe. -/
  | unwrittenByte
  /-- GET.DATA n with 4 + n > 1024 (R99). Safe. -/
  | beyondBuffer (n : Nat)
  /-- RX.*: the byte decode does not select this row here, so FEED never runs it (R57; log 7). Safe. -/
  | rowNotSelected (row : RxRow)
  /-- The step: the host's bytes end inside an operation or a frame (log 10). Safe. -/
  | truncatedInput
  /-- The step: the host's bytes are no operation and no frame: a write-flag byte other than 00 and 01, or a frame
  without a start marker (log 10). Safe. -/
  | malformedInput
  deriving DecidableEq, Repr

/-- What an operation or a part of one answers. -/
abbrev Answer (α : Type) := Host.Outcome α Fault Refusal

/-- The state after reset: 10_state.md R24, 70_reset_and_hazards.md R131 (the spec's decisions D9 and D10, logs 5 and
12); nothing issued (log 2). -/
def State.reset : State where
  st := .awaitStart
  size := 0
  rem := 0
  buf := []
  out := .nothing
  port := []

end Sys2Proof.Machine
end

