-- ==== Sys2Proof/Machine/Ops.lean ====
section
/-! DEFINITION. The named operations over the buffer and the registers: reads and writes of one byte (20_memory.md R30,
R31), reads of a run of bytes, the register updates, sequencing, and the reset of the block (41_parser.md R71). The
block has no exceptions (60_exceptions.md R113, R121, R122), so there is no exception entry or return here. -/

namespace Sys2Proof.Machine

/-- Run `f` on what `o` answers, unless `o` stops. -/
def andThen {α β : Type} (o : Answer α) (f : α → Answer β) : Answer β :=
  match o with
  | .next a => f a
  | .fault r => .fault r
  | .refused r => .refused r

/-! ### The buffer -/

/-- The byte at an index, or none where it is unwritten (10_state.md R18). -/
def Memory.read : Memory → Nat → Option Byte
  | [], _ => none
  | (a, v) :: m, i => if i = a then some v else Memory.read m i

/-- Write one byte; the byte becomes written (20_memory.md R31). Keeps the indices strictly rising. -/
def Memory.write : Memory → Nat → Byte → Memory
  | [], i, b => [(i, b)]
  | (a, v) :: m, i, b =>
    if i < a then (i, b) :: (a, v) :: m
    else if i = a then (i, b) :: m
    else (a, v) :: Memory.write m i b

/-- Every listed index is at least `lo` and below the capacity, and the indices rise strictly. -/
def Memory.risingFrom : Nat → Memory → Bool
  | _, [] => true
  | lo, (a, _) :: m => decide (lo ≤ a) && decide (a < Config.bufCap) && Memory.risingFrom (a + 1) m

/-- The canonical form of the buffer: indices strictly rising, all inside the address space (R28). -/
def Memory.wf (m : Memory) : Bool := Memory.risingFrom 0 m

/-- The `n` bytes `buf[a .. a+n)`, or none where one of them is unwritten. -/
def Memory.readRange (m : Memory) (a : Nat) : Nat → Option (List Byte)
  | 0 => some []
  | n + 1 =>
    match Memory.read m a with
    | none => none
    | some b => (Memory.readRange m (a + 1) n).map (b :: ·)

/-- A run of bytes as an unsigned little-endian number (R30). -/
def leNat : List Byte → Nat
  | [] => 0
  | b :: bs => b.toNat + 256 * leNat bs

/-- `MemRead(addr, n)` (R30): the unsigned little-endian value of the `n` bytes at `addr`, or none where one of them is
unwritten. -/
def Memory.memRead (m : Memory) (addr n : Nat) : Option Nat := (Memory.readRange m addr n).map leNat

/-! ### The registers -/

/-- Write the state tag. -/
def State.withSt (s : State) (st : ParseState) : State := { s with st := st }

/-- Write both counters. -/
def State.withCounts (s : State) (size rem : Count) : State := { s with size := size, rem := rem }

/-- Replace the buffer. -/
def State.withBuf (s : State) (m : Memory) : State := { s with buf := m }

/-- Hand a result to the host (00_scope.md R11 `return`, `emit`). -/
def State.withOut (s : State) (r : Result) : State := { s with out := r }

/-- Replace what the host has still to issue. -/
def State.withPort (s : State) (p : List Item) : State := { s with port := p }

/-- `MemWrite(i, 1, b)` (R31), inside the bounds of R35. -/
def storeByte (i : Nat) (b : Byte) (s : State) : Answer State :=
  if i < Config.bufCap then .next (s.withBuf (s.buf.write i b)) else .fault (.indexOutsideBuffer i)

/-- The block after RESET (41_parser.md R71): the four items at their reset values. The host's own `port` is no state
of the block and stays (log 20). -/
def resetBlock (s : State) : State :=
  ((s.withSt .awaitStart).withCounts 0 0).withBuf []

end Sys2Proof.Machine
end

