-- ==== Sys2Proof/Machine/Operands.lean ====
section
/-! DEFINITION. The operand forms: the accessors' reads at fixed offsets (42_accessors.md R90), the signed reading of a
value (R93, R95, R97), the string scan (R98), and where a row of the byte decode stores its byte (20_memory.md R31). -/

namespace Sys2Proof.Machine

/-- An unsigned `bits`-bit value as a two's complement number: `v` below half the range, else `v - 2^bits` (R93, R95,
R97; the spec's decision D11, log 11). -/
def signedOf (bits v : Nat) : Int :=
  if v < 2 ^ (bits - 1) then (v : Int) else (v : Int) - (2 : Int) ^ bits

/-- Hand the host a result made from `MemRead(addr, n)`; refused where a byte is unwritten (R90). -/
def returnRead (addr n : Nat) (result : Nat → Result) (s : State) : Answer State :=
  match s.buf.memRead addr n with
  | none => .refused .unwrittenByte
  | some v => .next (s.withOut (result v))

/-- How the scan for the first zero byte ends. -/
inductive StrScan where
  /-- A zero byte, after these bytes. -/
  | found (before : List Byte)
  /-- No zero byte in the window. -/
  | noZero
  /-- An unwritten byte before any zero byte. -/
  | unwritten
  deriving DecidableEq, Repr

/-- Put a byte in front of what a scan found. -/
def consScan (b : Byte) : StrScan → StrScan
  | .found before => .found (b :: before)
  | .noZero => .noZero
  | .unwritten => .unwritten

/-- Scan at most `fuel` bytes from index `a`, front to back, as far as the first zero byte (R98). -/
def scanString (m : Memory) : Nat → Nat → StrScan
  | 0, _ => .noZero
  | fuel + 1, a =>
    match m.read a with
    | none => .unwritten
    | some b => if b = 0 then .found [] else consScan b (scanString m fuel (a + 1))

/-- The index at which a row of the byte decode stores the fed byte: 0, 1, 2, or `size`; a dropped byte is not stored
(R31). -/
def storeIndex (row : RxRow) (s : State) : Option Nat :=
  match row with
  | .start => some 0
  | .drop => none
  | .lenLow => some 1
  | .lenHigh => some 2
  | .append => some s.size.toNat
  | .lastOk => some s.size.toNat
  | .lastBad => some s.size.toNat

end Sys2Proof.Machine
end

