-- ==== Sys2Proof/Machine/Accessors.lean ====
section
/-! DEFINITION. The nine accessors (42_accessors.md R90 to R99): pure reads of the buffer at fixed offsets, in any state
of the parser; refused where the result depends on an unwritten byte. -/

namespace Sys2Proof.Machine

/-- GET.CMD (R91). -/
def execGetCmd (s : State) : Answer State := returnRead Config.cmdOff 1 (fun v => .u8 (BitVec.ofNat 8 v)) s

/-- GET.U8 (R92). -/
def execGetU8 (s : State) : Answer State := returnRead Config.dataOff 1 (fun v => .u8 (BitVec.ofNat 8 v)) s

/-- GET.I8 (R93). -/
def execGetI8 (s : State) : Answer State := returnRead Config.dataOff 1 (fun v => .i8 (signedOf 8 v)) s

/-- GET.U16 (R94). -/
def execGetU16 (s : State) : Answer State := returnRead Config.dataOff 2 (fun v => .u16 (BitVec.ofNat 16 v)) s

/-- GET.I16 (R95). -/
def execGetI16 (s : State) : Answer State := returnRead Config.dataOff 2 (fun v => .i16 (signedOf 16 v)) s

/-- GET.U32 (R96). -/
def execGetU32 (s : State) : Answer State := returnRead Config.dataOff 4 (fun v => .u32 (BitVec.ofNat 32 v)) s

/-- GET.I32 (R97). -/
def execGetI32 (s : State) : Answer State := returnRead Config.dataOff 4 (fun v => .i32 (signedOf 32 v)) s

/-- GET.STR (R98): the bytes before the first zero byte of the window; empty where the window holds none. -/
def execGetStr (s : State) : Answer State :=
  match scanString s.buf Config.strWin Config.dataOff with
  | .found before => .next (s.withOut (.str before.length before))
  | .noZero => .next (s.withOut (.str 0 []))
  | .unwritten => .refused .unwrittenByte

/-- GET.DATA n (R99). -/
def execGetData (n : Nat) (s : State) : Answer State :=
  if Config.bufCap < Config.dataOff + n then .refused (.beyondBuffer n)
  else
    match s.buf.readRange Config.dataOff n with
    | none => .refused .unwrittenByte
    | some bytes => .next (s.withOut (.data bytes))

end Sys2Proof.Machine
end

