-- ==== Sys2Proof/Machine/Crc.lean ====
section
/-! DEFINITION. The CRC-16 checksum engine's two functions (40_crc.md R61, R63). The engine keeps no state (R60). -/

namespace Sys2Proof.Machine

/-- One byte (R61): the seven steps in the source's order; every value is 16 bits wide, so every shift truncates. -/
def crcStep (crc0 : Half) (b : Byte) : Half :=
  let code1 := (crc0 >>> 8) ^^^ b.setWidth 16
  let code2 := code1 ^^^ (code1 >>> 4)
  let crc3 := (crc0 <<< 8) ^^^ code2
  let code4 := code2 <<< 5
  let crc5 := crc3 ^^^ code4
  let code6 := code4 <<< 7
  crc5 ^^^ code6

/-- The loop of R63 over `s`, started from `crc`. -/
def crcFrom (crc : Half) : List Byte → Half
  | [] => crc
  | b :: s => crcFrom (crcStep crc b) s

/-- `crc16(s)` (R63). -/
def crc16 (s : List Byte) : Half := crcFrom Config.crcInit s

end Sys2Proof.Machine
end

