-- ==== Sys2Proof/Machine/Flags.lean ====
section
/-! DEFINITION. The step outputs and the checks they come from: `complete`, `crc_err`, `len_err` and the status code
(10_state.md R20, 60_exceptions.md R114), the length guard (41_parser.md R76), the checksum comparison (R78, R79). -/

namespace Sys2Proof.Machine

/-- The 2-bit status code (R114; decision D16, log 4). -/
def Status.code : Status → BitVec 2
  | .none => 0
  | .complete => 1
  | .crcErr => 2
  | .lenErr => 3

/-- The status of the last FEED of a list, or none. -/
def lastStatus : List Status → Status
  | [] => .none
  | [x] => x
  | _ :: y :: l => lastStatus (y :: l)

/-- The status an operation's result carries: every operation other than FEED produces none (R20). A list of FEEDs
leaves the outputs of its last one. -/
def Result.status : Result → Status
  | .fed x => x
  | .feds l => lastStatus l
  | .nothing | .crc _ | .frame _ | .u8 _ | .u16 _ | .u32 _ | .i8 _ | .i16 _ | .i32 _ | .str _ _ | .data _ => .none

/-- The output `complete` (R20). -/
def State.complete (s : State) : Bool := s.out.status = .complete

/-- The output `crc_err` (R20). -/
def State.crcErr (s : State) : Bool := s.out.status = .crcErr

/-- The output `len_err` (R20). -/
def State.lenErr (s : State) : Bool := s.out.status = .lenErr

/-- The remaining-bytes count `L + 2` (R76), at most 1025, so that 11 bits hold it (R139). -/
def remainingOf (len : Nat) : Nat := len + Config.crcBytes

/-- The length guard (R76): the remaining-bytes count, not `L`, is compared with 1019 (90_conflicts.md C2). -/
def lengthOverflow (len : Nat) : Bool := Config.remLimit < remainingOf len

/-- The received checksum: a frame's last two bytes, low byte first (30_encoding.md R45). -/
def receivedChecksum (f : List Byte) : Half := half (f.getD (f.length - 2) 0) (f.getD (f.length - 1) 0)

/-- The check of R45: the checksum of all bytes but the last two equals the received one. -/
def checksumMatches (f : List Byte) : Bool := crc16 (f.take (f.length - 2)) = receivedChecksum f

end Sys2Proof.Machine
end

