-- ==== Sys2Proof/Machine/Engine.lean ====
section
/-! DEFINITION. The two stateless operations: CRC16 (40_crc.md R64) and ENCODE (43_encoder.md R105 to R107). -/

namespace Sys2Proof.Machine

/-- CRC16 s (R64): the parser state is untouched. -/
def execCrc16 (seq : List Byte) (s : State) : Answer State := .next (s.withOut (.crc (crc16 seq)))

/-- `flags = (L << 6) | w` with `L = D + 1` (30_encoding.md R42). -/
def requestFlags (w : Bool) (data : List Byte) : Half :=
  (BitVec.ofNat 16 (data.length + 1) <<< Config.lenShift) ||| (if w then 1 else 0)

/-- Everything of a frame before its checksum (R105). -/
def frameHead (cmd : Byte) (w : Bool) (data : List Byte) : List Byte :=
  [Config.start, lowByte (requestFlags w data), highByte (requestFlags w data), cmd] ++ data

/-- The frame ENCODE builds (R105). -/
def encodeFrame (cmd : Byte) (w : Bool) (data : List Byte) : List Byte :=
  frameHead cmd w data ++ halfBytes (crc16 (frameHead cmd w data))

/-- ENCODE cmd, w, data (R105); `D + 1` must fit the 10-bit length field, else refused (R106; log 16). -/
def execEncode (cmd : Byte) (w : Bool) (data : List Byte) (s : State) : Answer State :=
  if data.length + 1 ≤ Config.lenMax then .next (s.withOut (.frame (encodeFrame cmd w data)))
  else .refused (.dataTooLong data.length)

end Sys2Proof.Machine
end

