-- ==== Sys2Proof/Machine/Parser.lean ====
section
/-! DEFINITION. The parser: RESET and FEED (41_parser.md R71 to R79) and the seven rows of the byte decode. One shared
selection of the row, one shared effect of a row; FEED runs the row selected, and each row's own instruction runs it
where it is the one selected. -/

namespace Sys2Proof.Machine

/-! ### Which row a fed byte selects (30_encoding.md R57, 41_parser.md R72) -/

/-- The row of a frame's last byte: store it, then compare the checksum over the whole stored frame (R78, R79). -/
def selectLast (b : Byte) (s : State) : Answer RxRow :=
  andThen (storeByte s.size.toNat b s) fun u =>
    match u.buf.readRange 0 (s.size.toNat + 1) with
    | none => .refused .unwrittenByte
    | some f =>
      if f.length < Config.crcBytes then .fault .frameTooShort
      else .next (decodeRx .readPayload true (checksumMatches f) b)

/-- The row a byte selects in ReadPayload: by `rem`, then by the checksum. No rule covers `rem` = 0 (log 6). -/
def selectPayload (b : Byte) (s : State) : Answer RxRow :=
  if s.rem = 0 then .fault .nothingRemaining
  else if s.rem = 1 then selectLast b s
  else .next (decodeRx .readPayload false false b)

/-- The row that byte `b` selects (R72). -/
def selectRow (b : Byte) (s : State) : Answer RxRow :=
  match s.st with
  | .awaitStart => .next (decodeRx .awaitStart false false b)
  | .readLenLow => .next (decodeRx .readLenLow false false b)
  | .readLenHigh => .next (decodeRx .readLenHigh false false b)
  | .readPayload => selectPayload b s

/-! ### What a row does -/

/-- Store the fed byte where the row stores it (R31). -/
def storeFed (row : RxRow) (b : Byte) (s : State) : Answer State :=
  match storeIndex row s with
  | none => .next s
  | some i => storeByte i b s

/-- R76 after the store: decode the length, set `rem` and `size`, then the guard. -/
def lengthDecoded (len : Nat) (s : State) : State :=
  let t := s.withCounts (BitVec.ofNat 11 Config.hdrBytes) (BitVec.ofNat 11 (remainingOf len))
  if lengthOverflow len then (t.withSt .awaitStart).withOut (.fed .lenErr)
  else (t.withSt .readPayload).withOut (.fed .none)

/-- R76: the length comes from the stored low flag byte and the fed high one. -/
def advanceLenHigh (b : Byte) (s : State) : Answer State :=
  match s.buf.read 1 with
  | none => .refused .unwrittenByte
  | some lo => .next (lengthDecoded (lengthField lo b) s)

/-- One more byte stored, one fewer to come (R77, R78, R79). -/
def countByte (s : State) : State := s.withCounts (s.size + 1) (s.rem - 1)

/-- The register updates and the outputs of a row, after the byte is stored (60_exceptions.md R120). -/
def advance (row : RxRow) (b : Byte) (s : State) : Answer State :=
  match row with
  | .start => .next ((s.withSt .readLenLow).withOut (.fed .none))
  | .drop => .next (s.withOut (.fed .none))
  | .lenLow => .next ((s.withSt .readLenHigh).withOut (.fed .none))
  | .lenHigh => advanceLenHigh b s
  | .append => .next ((countByte s).withOut (.fed .none))
  | .lastOk => .next (((countByte s).withSt .awaitStart).withOut (.fed .complete))
  | .lastBad => .next (((countByte s).withSt .awaitStart).withOut (.fed .crcErr))

/-- A row's whole effect (R73 to R79). -/
def applyRow (row : RxRow) (b : Byte) (s : State) : Answer State :=
  andThen (storeFed row b s) (advance row b)

/-- FEED b: the row selected, and no other (R72). -/
def feedByte (b : Byte) (s : State) : Answer State :=
  andThen (selectRow b s) fun row => applyRow row b s

/-- A row's own instruction: the row's effect where the byte decode selects that row; elsewhere FEED never runs it
(log 7). -/
def runRow (row : RxRow) (b : Byte) (s : State) : Answer State :=
  andThen (selectRow b s) fun selected =>
    if selected = row then applyRow row b s else .refused (.rowNotSelected row)

/-- FEED of each byte in order; the last state and the outputs of each FEED (30_encoding.md R56). -/
def feedAll : List Byte → State → Answer (State × List Status)
  | [], s => .next (s, [])
  | b :: bs, s =>
    andThen (feedByte b s) fun t =>
      andThen (feedAll bs t) fun u => .next (u.1, t.out.status :: u.2)

/-- FEED of each byte in order, the outputs handed to the host as one list (R56). -/
def feedList (bs : List Byte) (s : State) : Answer State :=
  andThen (feedAll bs s) fun u => .next (u.1.withOut (.feds u.2))

/-! ### The operations -/

/-- RESET (R71). -/
def execReset (s : State) : Answer State := .next ((resetBlock s).withOut .nothing)

/-- FEED b (R72). -/
def execFeed (b : Byte) (s : State) : Answer State := feedByte b s

/-- RX.START (R74). -/
def execRxStart (s : State) : Answer State := runRow .start Config.start s

/-- RX.DROP (R73). -/
def execRxDrop (b : Byte) (s : State) : Answer State := runRow .drop b s

/-- RX.LENLOW (R75). -/
def execRxLenLow (b : Byte) (s : State) : Answer State := runRow .lenLow b s

/-- RX.LENHIGH (R76). -/
def execRxLenHigh (b : Byte) (s : State) : Answer State := runRow .lenHigh b s

/-- RX.APPEND (R77). -/
def execRxAppend (b : Byte) (s : State) : Answer State := runRow .append b s

/-- RX.LAST.OK (R78). -/
def execRxLastOk (b : Byte) (s : State) : Answer State := runRow .lastOk b s

/-- RX.LAST.BAD (R79). -/
def execRxLastBad (b : Byte) (s : State) : Answer State := runRow .lastBad b s

end Sys2Proof.Machine
end

