-- ==== Sys2Proof/Machine/Reserved.lean ====
section
/-! DEFINITION. The reserved operation codes (30_encoding.md R54): each names no operation and is refused, with no state
change and no result. -/

namespace Sys2Proof.Machine

/-- The one outcome of a reserved code (R54). -/
def refuseCode (code : Byte) : Answer State := .refused (.reservedCode code)

/-- RESERVED.D (R54). -/
def execReservedD (_s : State) : Answer State := refuseCode 0x0D

/-- RESERVED.E (R54). -/
def execReservedE (_s : State) : Answer State := refuseCode 0x0E

/-- RESERVED.F (R54). -/
def execReservedF (_s : State) : Answer State := refuseCode 0x0F

/-- RESERVED.HIGH: a code byte with any of its high four bits set (R54). -/
def execReservedHigh (code : Byte) (_s : State) : Answer State := refuseCode code

end Sys2Proof.Machine
end

