-- ==== Sys2Proof/Machine/Streams.lean ====
section
/-! DEFINITION. The table's rows that stand for a run of FEEDs: the pseudo-operations FEEDS and RECV (30_encoding.md
R56, log 8) and a frame on the wire (R40, R44, log 9). -/

namespace Sys2Proof.Machine

/-- FEEDS (R56): FEED of each byte in order. -/
def execFeeds (bs : List Byte) (s : State) : Answer State := feedList bs s

/-- RECV (R56): RESET, then FEEDS. -/
def execRecv (bs : List Byte) (s : State) : Answer State := feedList bs (resetBlock s)

/-- FRAME (R40): a frame reaches the parser, which takes its bytes one at a time in wire order (41_parser.md R70). -/
def execFrame (w : Bool) (reserved : BitVec 5) (counted : List Byte) (checksum : Half) (s : State) : Answer State :=
  feedList (frameBytes w reserved counted checksum) s

end Sys2Proof.Machine
end

