-- ==== Sys2Proof/Machine/Dispatch.lean ====
section
/-! DEFINITION. One arm per constructor of Instr, each a direct call of that instruction's meaning. -/

namespace Sys2Proof.Machine

def exec (i : Instr) (s : State) : Host.Outcome State Fault Refusal :=
  match i with
  | .reset => Sys2Proof.Machine.execReset s
  | .feed b => Sys2Proof.Machine.execFeed b s
  | .crc16 bs => Sys2Proof.Machine.execCrc16 bs s
  | .encode cmd w data => Sys2Proof.Machine.execEncode cmd w data s
  | .getCmd => Sys2Proof.Machine.execGetCmd s
  | .getU8 => Sys2Proof.Machine.execGetU8 s
  | .getI8 => Sys2Proof.Machine.execGetI8 s
  | .getU16 => Sys2Proof.Machine.execGetU16 s
  | .getI16 => Sys2Proof.Machine.execGetI16 s
  | .getU32 => Sys2Proof.Machine.execGetU32 s
  | .getI32 => Sys2Proof.Machine.execGetI32 s
  | .getStr => Sys2Proof.Machine.execGetStr s
  | .getData n => Sys2Proof.Machine.execGetData n s
  | .reservedD => Sys2Proof.Machine.execReservedD s
  | .reservedE => Sys2Proof.Machine.execReservedE s
  | .reservedF => Sys2Proof.Machine.execReservedF s
  | .reservedHigh code => Sys2Proof.Machine.execReservedHigh code s
  | .feeds bs => Sys2Proof.Machine.execFeeds bs s
  | .recv bs => Sys2Proof.Machine.execRecv bs s
  | .rxStart => Sys2Proof.Machine.execRxStart s
  | .rxDrop b => Sys2Proof.Machine.execRxDrop b s
  | .rxLenLow b => Sys2Proof.Machine.execRxLenLow b s
  | .rxLenHigh b => Sys2Proof.Machine.execRxLenHigh b s
  | .rxAppend b => Sys2Proof.Machine.execRxAppend b s
  | .rxLastOk b => Sys2Proof.Machine.execRxLastOk b s
  | .rxLastBad b => Sys2Proof.Machine.execRxLastBad b s
  | .frame w reserved counted checksum => Sys2Proof.Machine.execFrame w reserved counted checksum s

end Sys2Proof.Machine
end

