-- ==== Sys2Proof/Machine/Fetch.lean ====
section
/-! DEFINITION. What the block runs next: the host's first pending item, decoded in its format (30_encoding.md R53, R57,
R40; log 1). The block itself fetches nothing (20_memory.md R38). -/

namespace Sys2Proof.Machine

/-- How a decoding that failed stops the step (log 10). -/
def refuseInput : DecodeError → Refusal
  | .truncated => .truncatedInput
  | .badWriteFlag _ => .malformedInput
  | .noStart => .malformedInput

/-- The items left when `bs` of the first one's bytes are left. -/
def leftOps (bs : List Byte) (rest : List Item) : List Item :=
  if bs = [] then rest else .ops bs :: rest

/-- The same for a frame's bytes. -/
def leftWire (bs : List Byte) (rest : List Item) : List Item :=
  if bs = [] then rest else .wire bs :: rest

/-- The instruction to run and the items left, where `left` says what is left of the first item. -/
def fetched (r : Except DecodeError (Instr × List Byte)) (left : List Byte → List Item) :
    Answer (Option (Instr × List Item)) :=
  match r with
  | .ok (i, bs) => .next (some (i, left bs))
  | .error e => .refused (refuseInput e)

/-- The next instruction and the items left after it; none while the host has issued nothing (70_reset_and_hazards.md
R132: the block waits for operations). -/
def fetch (s : State) : Answer (Option (Instr × List Item)) :=
  match s.port with
  | [] => .next none
  | .ops bs :: rest => fetched (decodeOp bs) (fun left => leftOps left rest)
  | .rx b :: rest => andThen (selectRow b s) fun row => .next (some (row.instr b, rest))
  | .wire bs :: rest => fetched (decodeFrame bs) (fun left => leftWire left rest)

/-- A step in which the host issues nothing: no state of the block changes and there is no result (log 2). -/
def idle (s : State) : State := s.withOut .nothing

/-- Put an item first among what the host issues. A byte of the RXBYTE format stands for the row it selects in
AwaitStart, so the tag goes there with it (log 14). -/
def presentItem (item : Item) (s : State) : State :=
  match item with
  | .ops bs => s.withPort (.ops bs :: s.port)
  | .rx b => (s.withSt .awaitStart).withPort (.rx b :: s.port)
  | .wire bs => s.withPort (.wire bs :: s.port)

end Sys2Proof.Machine
end

