-- ==== Sys2Proof/Machine/Step.lean ====
section
/-! DEFINITION. One step: the host's next operation, run whole (00_scope.md R6, R12; 20_memory.md R36). -/

namespace Sys2Proof.Machine

def step (s : State) : Host.Outcome State Fault Refusal :=
  match fetch s with
  | .next none => .next (idle s)
  | .next (some (i, port)) => exec i (s.withPort port)
  | .fault r => .fault r
  | .refused r => .refused r

def State.withFetchWord (s : State) (nbits w : Nat) : State := presentItem (tableItem nbits w) s

end Sys2Proof.Machine
end

