-- ==== Sys2Proof/Safety.lean ====
section
/-! DEFINITION. What claims are stated in: the invariant of the state (10_state.md R23), valid and well-formed frames
(30_encoding.md R50), the indices a run of FEEDs stores at (20_memory.md R31), a run of operations with its results
(70_reset_and_hazards.md R145), and the bitwise CRC that R66 compares the engine with. -/

namespace Sys2Proof.Machine

/-- The length field of the stored flags (R23 item 1, R43); 0 while they are unwritten. -/
def storedLength (m : Memory) : Nat :=
  match m.read 1, m.read 2 with
  | some lo, some hi => lengthField lo hi
  | _, _ => 0

/-- The byte at `i` is written. -/
def written (m : Memory) (i : Nat) : Prop := m.read i ≠ none

/-- R23: what holds of the block's state after reset and after every operation. -/
structure Inv (s : State) : Prop where
  /-- The buffer's canonical form (R28). -/
  canonical : s.buf.wf = true
  /-- Item 4: indices 1022 and 1023 are never written. -/
  topUnwritten : ∀ i, 1022 ≤ i → s.buf.read i = none
  /-- Item 4. -/
  sizeBound : s.size.toNat ≤ 1022
  /-- Item 5. -/
  remBound : s.rem.toNat ≤ 1025
  /-- Items 2 and 3: outside AwaitStart the stored frame begins with the start marker. -/
  startStored : s.st ≠ .awaitStart → s.buf.read 0 = some Config.start
  /-- Item 3. -/
  lowStored : s.st = .readLenHigh → written s.buf 1
  /-- Item 1. -/
  payloadSize : s.st = .readPayload → 3 ≤ s.size.toNat ∧ s.size.toNat ≤ 1021
  /-- Item 1. -/
  payloadRem : s.st = .readPayload → 1 ≤ s.rem.toNat ∧ s.rem.toNat ≤ 1019
  /-- Item 1. -/
  payloadLength : s.st = .readPayload →
    s.size.toNat + s.rem.toNat = 5 + storedLength s.buf ∧ 5 + storedLength s.buf ≤ 1022
  /-- Item 2. -/
  payloadStored : s.st = .readPayload → ∀ i, i < s.size.toNat → written s.buf i

/-- `valid_frame(f)` (R50). -/
def validFrame (f : List Byte) : Bool :=
  decide (5 ≤ f.length) && decide (f.getD 0 0 = Config.start) &&
  decide (f.length = 5 + lengthField (f.getD 1 0) (f.getD 2 0)) &&
  decide (lengthField (f.getD 1 0) (f.getD 2 0) ≤ 1017) && checksumMatches f

/-- A well-formed frame: valid, `L` at least 1, the reserved flag bits 0 (R50). -/
def wellFormedFrame (f : List Byte) : Bool :=
  validFrame f && decide (1 ≤ lengthField (f.getD 1 0) (f.getD 2 0)) && decide (reservedBits (f.getD 1 0) = 0)

/-- `f` with bit `k` of its byte `p` flipped (41_parser.md R85). -/
def flipBit (f : List Byte) (p k : Nat) : List Byte := f.set p (f.getD p 0 ^^^ (1#8 <<< k))

/-- The indices that feeding `bs` from `s` stores at, by the row each byte selects. -/
def storedIndices : List Byte → State → List Nat
  | [], _ => []
  | b :: bs, s =>
    match selectRow b s, feedByte b s with
    | .next row, .next t => (storeIndex row s).toList ++ storedIndices bs t
    | _, _ => []

/-- A run: the operations issued one after another, and the list of their results (R145). -/
def runOps : List Instr → State → Answer (State × List Result)
  | [], s => .next (s, [])
  | i :: is, s =>
    andThen (exec i s) fun t => andThen (runOps is t) fun u => .next (u.1, t.out :: u.2)

/-- One bit of the most-significant-bit-first CRC with polynomial 0x1021 (40_crc.md R66). -/
def crcBit (crc : Half) : Half := if crc.getLsbD 15 then (crc <<< 1) ^^^ 0x1021 else crc <<< 1

/-- One byte of that CRC: `b << 8` into the register, then eight bits (R66). -/
def crcByteBitwise (crc : Half) (b : Byte) : Half :=
  crcBit (crcBit (crcBit (crcBit (crcBit (crcBit (crcBit (crcBit (crc ^^^ (b.setWidth 16 <<< 8)))))))))

end Sys2Proof.Machine
end

