-- ==== Sys2Proof/Certificates/Slice0/Obligations.lean ====
section
/-! DEFINITION. The statements for the provers. Each docstring names the rule it formalises; where a clause rests on a
decision of the spec (92_eei_decisions.md) or on a choice of the model (notes/assumptions), it says so. -/

open Sys2Proof Sys2Proof.Machine

/-! ### Reset -/

/-- The state after reset: 10_state.md section 6 (the spec's decisions D9 and D10; logs 5 and 12). -/
def Obligations.ResetLeavesInitialValues : Prop :=
  State.reset.st = .awaitStart ∧ State.reset.size = 0 ∧ State.reset.rem = 0 ∧
    (∀ i, State.reset.buf.read i = none) ∧
    State.reset.complete = false ∧ State.reset.crcErr = false ∧ State.reset.lenErr = false

/-- RESET, from every state, has the effect of hardware reset on the block (decisions D9, D10); the host's pending
operations are not the block's and stay (log 20). -/
def Obligations.ResetOperationClearsBlock : Prop :=
  ∀ s : State, exec .reset s = .next { State.reset with port := s.port }

/-! ### FEED, rule by rule -/

/-- R73: in AwaitStart a byte other than 0xAA is dropped. -/
def Obligations.FeedDropsNoise : Prop :=
  ∀ (s : State) (b : Byte), s.st = .awaitStart → b ≠ 0xAA →
    exec (.feed b) s = .next { s with out := .fed .none } ∧
    exec (.rxDrop b) s = .next { s with out := .fed .none }

/-- R74: in AwaitStart the byte 0xAA is stored and the parser advances; that `size` and `rem` stay is decision D7. -/
def Obligations.FeedTakesStartMarker : Prop :=
  ∀ s : State, s.st = .awaitStart →
    exec (.feed 0xAA) s =
      .next { s with st := .readLenLow, buf := s.buf.write 0 0xAA, out := .fed .none } ∧
    exec .rxStart s =
      .next { s with st := .readLenLow, buf := s.buf.write 0 0xAA, out := .fed .none }

/-- R75: the low byte of flags; that `size` and `rem` stay is decision D7. -/
def Obligations.FeedStoresFlagsLow : Prop :=
  ∀ (s : State) (b : Byte), s.st = .readLenLow →
    exec (.feed b) s = .next { s with st := .readLenHigh, buf := s.buf.write 1 b, out := .fed .none } ∧
    exec (.rxLenLow b) s = .next { s with st := .readLenHigh, buf := s.buf.write 1 b, out := .fed .none }

/-- R76: the high byte of flags, the decoded length and the guard. The counters after an abort are decision D8, the
output `len_err` is decision D16. -/
def Obligations.FeedDecodesLength : Prop :=
  ∀ (s : State) (lo b : Byte), s.st = .readLenHigh → s.buf.read 1 = some lo →
    ∃ t : State,
      exec (.feed b) s = .next t ∧ exec (.rxLenHigh b) s = .next t ∧
      t.rem.toNat = (lo.toNat + 256 * b.toNat) / 64 + 2 ∧
      t = { s with
        st := if (lo.toNat + 256 * b.toNat) / 64 + 2 > 1019 then .awaitStart else .readPayload
        size := 3
        rem := t.rem
        buf := s.buf.write 2 b
        out := .fed (if (lo.toNat + 256 * b.toNat) / 64 + 2 > 1019 then .lenErr else .none) }

/-- R77: a byte that is not the last is appended; neither counter wraps, and in a state that meets the invariant the
index is at most 1020. -/
def Obligations.FeedAppendsByte : Prop :=
  ∀ (s : State) (b : Byte), s.st = .readPayload → 1 < s.rem.toNat →
    (Inv s → s.size.toNat ≤ 1020) ∧
    (s.size.toNat < 1024 → ∃ t : State,
      exec (.feed b) s = .next t ∧ exec (.rxAppend b) s = .next t ∧
      t.size.toNat = s.size.toNat + 1 ∧ t.rem.toNat = s.rem.toNat - 1 ∧
      t = { s with
        size := t.size
        rem := t.rem
        buf := s.buf.write s.size.toNat b
        out := .fed .none })

/-- R78: the last byte of a frame whose checksum matches. `covered` is every stored byte but the last, `c0` the last
stored one (the checksum's low byte); the fed byte is the checksum's high byte. In a state that meets the invariant of
R23, `size` is then the frame's total length `5 + L` and the covered bytes include the three header bytes. -/
def Obligations.FeedCompletesFrame : Prop :=
  ∀ (s : State) (b c0 : Byte) (covered : List Byte),
    s.st = .readPayload → s.rem = 1 → 1 ≤ s.size.toNat → s.size.toNat < 1024 →
    covered.length = s.size.toNat - 1 → (∀ k, k < covered.length → s.buf.read k = covered[k]?) →
    s.buf.read (s.size.toNat - 1) = some c0 → (crc16 covered).toNat = c0.toNat + 256 * b.toNat →
    ∃ t : State,
      exec (.feed b) s = .next t ∧ exec (.rxLastOk b) s = .next t ∧
      t.size.toNat = s.size.toNat + 1 ∧ t.complete = true ∧ t.crcErr = false ∧ t.lenErr = false ∧
      (Inv s → t.size.toNat = 5 + storedLength s.buf ∧ 3 ≤ covered.length) ∧
      (∀ k, k < t.size.toNat → t.buf.read k = (covered ++ [c0, b])[k]?) ∧
      t = { s with
        st := .awaitStart
        size := t.size
        rem := 0
        buf := s.buf.write s.size.toNat b
        out := .fed .complete }

/-- R79: the last byte of a frame whose checksum does not match. The output `crc_err` is decision D16. -/
def Obligations.FeedDiscardsBadFrame : Prop :=
  ∀ (s : State) (b c0 : Byte) (covered : List Byte),
    s.st = .readPayload → s.rem = 1 → 1 ≤ s.size.toNat → s.size.toNat < 1024 →
    covered.length = s.size.toNat - 1 → (∀ k, k < covered.length → s.buf.read k = covered[k]?) →
    s.buf.read (s.size.toNat - 1) = some c0 → (crc16 covered).toNat ≠ c0.toNat + 256 * b.toNat →
    ∃ t : State,
      exec (.feed b) s = .next t ∧ exec (.rxLastBad b) s = .next t ∧
      t.size.toNat = s.size.toNat + 1 ∧ t.complete = false ∧
      t = { s with
        st := .awaitStart
        size := t.size
        rem := 0
        buf := s.buf.write s.size.toNat b
        out := .fed .crcErr }

/-- R72: FEED is total, in every state that meets the invariant of R23 (outside it, see log 6). -/
def Obligations.FeedIsTotal : Prop :=
  ∀ (s : State) (b : Byte), Inv s → ∃ t : State, exec (.feed b) s = .next t

/-- R57 and R72: the byte decode selects by `st`, then by the byte, then by `rem`; the selected row's own instruction
does what FEED does, and every other row is refused by name (log 7). -/
def Obligations.ByteDecodeSelectsOneRow : Prop :=
  ∀ (s : State) (b : Byte),
    (s.st = .awaitStart → selectRow b s = .next (if b = 0xAA then .start else .drop)) ∧
    (s.st = .readLenLow → selectRow b s = .next .lenLow) ∧
    (s.st = .readLenHigh → selectRow b s = .next .lenHigh) ∧
    (s.st = .readPayload → 1 < s.rem.toNat → selectRow b s = .next .append) ∧
    (s.st = .readPayload → s.rem = 1 → ∀ row, selectRow b s = .next row → row = .lastOk ∨ row = .lastBad) ∧
    (∀ row, selectRow b s = .next row → exec (row.instr b) s = exec (.feed b) s) ∧
    (∀ row row', selectRow b s = .next row → row' ≠ row → (row' = .start → b = 0xAA) →
      exec (row'.instr b) s = .refused (.rowNotSelected row'))

/-- R31, R34: FEED and the rows of the byte decode write at most one byte of the buffer, at the index the row gives,
and leave every other byte; in AwaitStart and ReadLenLow they leave both counters (decision D7); they leave what the
host has still to issue. -/
def Obligations.FeedFrame : Prop :=
  ∀ (s t : State) (b : Byte) (i : Instr),
    (i = .feed b ∨ ∃ row : RxRow, (row = .start → b = 0xAA) ∧ i = row.instr b) →
    exec i s = .next t →
    ∃ row, selectRow b s = .next row ∧ t.port = s.port ∧
      (∀ a, storeIndex row s ≠ some a → t.buf.read a = s.buf.read a) ∧
      (∀ a, storeIndex row s = some a → t.buf.read a = some b) ∧
      (s.st = .awaitStart ∨ s.st = .readLenLow → t.size = s.size ∧ t.rem = s.rem)

/-- The same for a run of FEEDs: FEEDS and FRAME leave every byte outside the indices that the fed bytes are stored at;
RECV leaves such a byte unwritten (logs 8 and 9). -/
def Obligations.FeedListFrame : Prop :=
  ∀ (s t : State) (bs : List Byte),
    (∀ i : Instr, (i = .feeds bs ∨ ∃ w reserved counted checksum,
        i = .frame w reserved counted checksum ∧ bs = frameBytes w reserved counted checksum) →
      exec i s = .next t →
      t.port = s.port ∧ ∀ a, a ∉ storedIndices bs s → t.buf.read a = s.buf.read a) ∧
    (exec (.recv bs) s = .next t →
      t.port = s.port ∧ ∀ a, a ∉ storedIndices bs (resetBlock s) → t.buf.read a = none)

/-! ### The CRC engine -/

/-- R61, R10: the seven steps of one byte, on natural numbers with truncation to 16 bits; its worked example. -/
def Obligations.CrcStepIsSevenSteps : Prop :=
  crcStep 0x0000 0xAA = 0x14A0 ∧ ∀ (crc : Half) (b : Byte),
    (crcStep crc b).toNat =
      (let code1 := (crc.toNat / 256) ^^^ b.toNat
       let code2 := code1 ^^^ (code1 / 16)
       let crc3 := (crc.toNat * 256 % 65536) ^^^ code2
       let code4 := code2 * 32 % 65536
       let crc5 := crc3 ^^^ code4
       let code6 := code4 * 128 % 65536
       crc5 ^^^ code6)

/-- R62: the closed form of one step. -/
def Obligations.CrcStepClosedForm : Prop :=
  ∀ (crc : Half) (b : Byte),
    crcStep crc b =
      (let t := ((crc >>> 8) ^^^ b.setWidth 16) &&& (0xFF : Half)
       let c := t ^^^ (t >>> 4)
       (crc <<< 8) ^^^ c ^^^ (c <<< 5) ^^^ (c <<< 12))

/-- R66: the step is one byte of the bitwise CRC with polynomial 0x1021, most significant bit first. -/
def Obligations.CrcStepIsBitwiseCrc : Prop :=
  ∀ (crc : Half) (b : Byte), crcStep crc b = crcByteBitwise crc b

/-- R63: the loop starts at 0 and takes the bytes first to last; its worked example. -/
def Obligations.Crc16IsTheLoop : Prop :=
  crc16 [] = 0 ∧ (∀ (l : List Byte) (b : Byte), crc16 (l ++ [b]) = crcStep (crc16 l) b) ∧
    crc16 [0xAA, 0x40, 0x00, 0x01] = 0x8F51

/-- R64: CRC16 answers the checksum, for a sequence of any length, and touches nothing of the parser; leading zero bytes
do not show; the operation code is 0x2, with a 16-bit count where the stream can carry it (R53). -/
def Obligations.Crc16Operation : Prop :=
  (∀ (s : State) (l : List Byte), exec (.crc16 l) s = .next { s with out := .crc (crc16 l) }) ∧
    (∀ (n : Nat) (l : List Byte), crc16 (List.replicate n 0 ++ l) = crc16 l) ∧
    (∀ l rest : List Byte, l.length ≤ 65535 →
      decodeOp ([0x02, BitVec.ofNat 8 (l.length % 256), BitVec.ofNat 8 (l.length / 256)] ++ l ++ rest) =
        .ok (.crc16 l, rest)) ∧
    crc16 [0x31, 0x32, 0x33, 0x34, 0x35, 0x36, 0x37, 0x38, 0x39] = 0x31C3

/-- R68: linearity over bytewise exclusive or. -/
def Obligations.Crc16IsLinear : Prop :=
  ∀ l l' : List Byte, l.length = l'.length →
    crc16 (List.zipWith (fun a b => a ^^^ b) l l') = crc16 l ^^^ crc16 l'

/-- R69: with the checksum appended high byte first the residue is 0. -/
def Obligations.CrcResidueHighByteFirst : Prop :=
  ∀ l : List Byte, crc16 (l ++ [highByte (crc16 l), lowByte (crc16 l)]) = 0

/-! ### The encoder -/

/-- R105: the frame ENCODE builds, flags and checksum low byte first, and the parser state untouched; well formed up to
1016 data bytes (R50); the operation code is 0x3, with the operands as R53 lays them out; its example. -/
def Obligations.EncodeBuildsFrame : Prop :=
  ∀ (s : State) (cmd : Byte) (w : Bool) (data : List Byte), data.length ≤ 1022 →
    ∃ head f : List Byte,
      head = [0xAA, BitVec.ofNat 8 (((data.length + 1) * 64 + w.toNat) % 256),
        BitVec.ofNat 8 (((data.length + 1) * 64 + w.toNat) / 256), cmd] ++ data ∧
      f = head ++ [BitVec.ofNat 8 ((crc16 head).toNat % 256), BitVec.ofNat 8 ((crc16 head).toNat / 256)] ∧
      f.length = 6 + data.length ∧
      exec (.encode cmd w data) s = .next { s with out := .frame f } ∧
      (data.length ≤ 1016 → wellFormedFrame f = true) ∧
      (∀ rest, decodeOp ([0x03, cmd, if w then 0x01 else 0x00, BitVec.ofNat 8 (data.length % 256),
        BitVec.ofNat 8 (data.length / 256)] ++ data ++ rest) = .ok (.encode cmd w data, rest)) ∧
      encodeFrame 0x01 false [] = [0xAA, 0x40, 0x00, 0x01, 0x51, 0x8F]

/-- 43_encoder.md R106 (decision D14): more than 1022 data bytes are refused. -/
def Obligations.EncodeRefusesLongData : Prop :=
  ∀ (s : State) (cmd : Byte) (w : Bool) (data : List Byte), 1022 < data.length →
    exec (.encode cmd w data) s = .refused (.dataTooLong data.length)

/-- R105's corner case with R50 and R108: the frame is well formed up to 1016 data bytes, and no valid frame for the
parser from 1017 to 1022. -/
def Obligations.EncodedFrameIsWellFormed : Prop :=
  ∀ (cmd : Byte) (w : Bool) (data : List Byte),
    (data.length ≤ 1016 → wellFormedFrame (encodeFrame cmd w data) = true) ∧
    (1016 < data.length → data.length ≤ 1022 → validFrame (encodeFrame cmd w data) = false)

/-- R50: every well-formed frame is the one ENCODE builds from its own fields. -/
def Obligations.WellFormedFrameIsEncoded : Prop :=
  ∀ f : List Byte, wellFormedFrame f = true →
    f = encodeFrame (f.getD 3 0) (writeFlag (f.getD 1 0)) ((f.drop 4).take (f.length - 6))

/-! ### The accessors -/

/-- R91, R92: GET.CMD reads index 3 and GET.U8 index 4; each is refused where its byte is unwritten. -/
def Obligations.ByteAccessorsRead : Prop :=
  ∀ s : State,
    (∀ b, s.buf.read 3 = some b → exec .getCmd s = .next { s with out := .u8 b }) ∧
    (s.buf.read 3 = none → exec .getCmd s = .refused .unwrittenByte) ∧
    (∀ b, s.buf.read 4 = some b → exec .getU8 s = .next { s with out := .u8 b }) ∧
    (s.buf.read 4 = none → exec .getU8 s = .refused .unwrittenByte)

/-- R94: GET.U16 is `buf[4] + 256 * buf[5]`, refused where one of the two is unwritten; its code is 0x7. -/
def Obligations.GetU16ReadsLittleEndian : Prop :=
  (∀ rest, decodeOp (0x07 :: rest) = .ok (.getU16, rest)) ∧ ∀ s : State,
    (∀ b0 b1, s.buf.read 4 = some b0 → s.buf.read 5 = some b1 →
      ∃ v : BitVec 16, v.toNat = b0.toNat + 256 * b1.toNat ∧ exec .getU16 s = .next { s with out := .u16 v }) ∧
    (s.buf.read 4 = none ∨ s.buf.read 5 = none → exec .getU16 s = .refused .unwrittenByte)

/-- R96: GET.U32 is `buf[4] + 256 * buf[5] + 65536 * buf[6] + 16777216 * buf[7]`, refused where one of the four is
unwritten; its code is 0x9. -/
def Obligations.GetU32ReadsLittleEndian : Prop :=
  (∀ rest, decodeOp (0x09 :: rest) = .ok (.getU32, rest)) ∧ ∀ s : State,
    (∀ b0 b1 b2 b3, s.buf.read 4 = some b0 → s.buf.read 5 = some b1 → s.buf.read 6 = some b2 →
      s.buf.read 7 = some b3 →
      ∃ v : BitVec 32,
        v.toNat = b0.toNat + 256 * b1.toNat + 65536 * b2.toNat + 16777216 * b3.toNat ∧
        exec .getU32 s = .next { s with out := .u32 v }) ∧
    (s.buf.read 4 = none ∨ s.buf.read 5 = none ∨ s.buf.read 6 = none ∨ s.buf.read 7 = none →
      exec .getU32 s = .refused .unwrittenByte)

/-- 42_accessors.md R93, R95, R97 with decision D11: the signed accessors read the same bits as two's complement (log
11). -/
def Obligations.SignedAccessorsAreTwosComplement : Prop :=
  ∀ s : State,
    (∀ b0, s.buf.read 4 = some b0 → exec .getI8 s = .next { s with out := .i8 b0.toInt }) ∧
    (∀ b0 b1, s.buf.read 4 = some b0 → s.buf.read 5 = some b1 →
      exec .getI16 s = .next { s with out := .i16 (b1 ++ b0 : BitVec 16).toInt }) ∧
    (∀ b0 b1 b2 b3, s.buf.read 4 = some b0 → s.buf.read 5 = some b1 → s.buf.read 6 = some b2 →
      s.buf.read 7 = some b3 →
      exec .getI32 s = .next { s with out := .i32 (b3 ++ b2 ++ b1 ++ b0 : BitVec 32).toInt }) ∧
    (s.buf.read 4 = none →
      exec .getI8 s = .refused .unwrittenByte ∧ exec .getI16 s = .refused .unwrittenByte ∧
        exec .getI32 s = .refused .unwrittenByte) ∧
    (s.buf.read 5 = none →
      exec .getI16 s = .refused .unwrittenByte ∧ exec .getI32 s = .refused .unwrittenByte) ∧
    (s.buf.read 6 = none ∨ s.buf.read 7 = none → exec .getI32 s = .refused .unwrittenByte)

/-- R98 (bytes, not text: decision D12): `l` is what the scan passes before a zero byte, before an unwritten byte, or the
whole 16-byte window. -/
def Obligations.GetStrScansWindow : Prop :=
  ∀ (s : State) (l : List Byte), 0 ∉ l → (∀ k, k < l.length → s.buf.read (4 + k) = l[k]?) →
    (l.length < 16 → s.buf.read (4 + l.length) = some 0 →
      exec .getStr s = .next { s with out := .str l.length l }) ∧
    (l.length = 16 → exec .getStr s = .next { s with out := .str 0 [] }) ∧
    (l.length < 16 → s.buf.read (4 + l.length) = none → exec .getStr s = .refused .unwrittenByte)

/-- R99 with decisions D10 and D13: GET.DATA copies `n` bytes from index 4, or is refused. -/
def Obligations.GetDataCopiesBytes : Prop :=
  ∀ (s : State) (n : Nat),
    (∀ l : List Byte, l.length = n → 4 + n ≤ 1024 → (∀ k, k < n → s.buf.read (4 + k) = l[k]?) →
      exec (.getData n) s = .next { s with out := .data l }) ∧
    (4 + n ≤ 1024 → (∃ k, k < n ∧ s.buf.read (4 + k) = none) →
      exec (.getData n) s = .refused .unwrittenByte) ∧
    (1024 < 4 + n → exec (.getData n) s = .refused (.beyondBuffer n))

/-- R99: since indices 1022 and 1023 are never written, every `n` above 1018 is refused. -/
def Obligations.GetDataAbove1018IsRefused : Prop :=
  ∀ (s : State) (n : Nat), Inv s → 1018 < n → ∃ r, exec (.getData n) s = .refused r

/-- R90: an accessor's result depends on the buffer alone, and it writes nothing of the block. -/
def Obligations.AccessorsOnlyReadBuffer : Prop :=
  ∀ (i : Instr) (s s' : State),
    (i ∈ [Instr.getCmd, .getU8, .getI8, .getU16, .getI16, .getU32, .getI32, .getStr] ∨ ∃ n, i = .getData n) →
    s.buf = s'.buf →
    (∃ r, exec i s = .next { s with out := r } ∧ exec i s' = .next { s' with out := r }) ∨
      (∃ x, exec i s = .refused x ∧ exec i s' = .refused x)

/-- R32: reads of different widths at the same offset nest. -/
def Obligations.AccessorWidthsNest : Prop :=
  ∀ s t : State,
    (∀ v, exec .getU32 s = .next t → t.out = .u32 v →
      exec .getU16 s = .next { s with out := .u16 (v.setWidth 16) } ∧
      exec .getU8 s = .next { s with out := .u8 (v.setWidth 8) }) ∧
    (∀ v, exec .getU16 s = .next t → t.out = .u16 v →
      exec .getU8 s = .next { s with out := .u8 (v.setWidth 8) })

/-! ### Reserved codes -/

/-- 30_encoding.md R54 (decision D3): a reserved code names no operation and is refused. -/
def Obligations.ReservedCodesAreRefused : Prop :=
  ∀ (s : State) (code : Byte),
    exec .reservedD s = .refused (.reservedCode 0x0D) ∧ exec .reservedE s = .refused (.reservedCode 0x0E) ∧
      exec .reservedF s = .refused (.reservedCode 0x0F) ∧
      exec (.reservedHigh code) s = .refused (.reservedCode code)

/-! ### Runs of FEEDs -/

/-- FEEDS, RECV and FRAME always complete with one output per byte, and keep the invariant; RECV does so from every
state (R56, R72; logs 8 and 9). -/
def Obligations.FeedListsComplete : Prop :=
  ∀ (s : State) (bs : List Byte),
    (Inv s → ∃ (t : State) (l : List Status),
      exec (.feeds bs) s = .next t ∧ t.out = .feds l ∧ l.length = bs.length ∧ Inv t) ∧
    (∃ (t : State) (l : List Status),
      exec (.recv bs) s = .next t ∧ t.out = .feds l ∧ l.length = bs.length ∧ Inv t) ∧
    (∀ (w : Bool) (reserved : BitVec 5) (checksum : Half), Inv s → ∃ (t : State) (l : List Status),
      exec (.frame w reserved bs checksum) s = .next t ∧ t.out = .feds l ∧ l.length = 5 + bs.length ∧ Inv t)

/-- 30_encoding.md R56 (decision D4): RECV is RESET, then FEEDS. -/
def Obligations.RecvIsResetThenFeeds : Prop :=
  ∀ (s : State) (bs : List Byte), exec (.recv bs) s = andThen (exec .reset s) (exec (.feeds bs))

/-- 30_encoding.md R56 (decision D4; log 8): a pseudo-operation does what its expansion does as a stream of single
operations, one step each; only the form of the result differs (the last FEED's output, not the list). -/
def Obligations.PseudoOperationsRunAsExpansion : Prop :=
  ∀ (s : State) (bs : List Byte), bs ≠ [] →
    (Inv s → ∃ (t : State) (l : List Status),
      exec (.feeds bs) s = .next t ∧ t.out = .feds l ∧
      Host.Core.run core bs.length { s with port := encode (.feeds bs) :: s.port } =
        .next { t with out := .fed (lastStatus l) }) ∧
    (∃ (t : State) (l : List Status),
      exec (.recv bs) s = .next t ∧ t.out = .feds l ∧
      Host.Core.run core (bs.length + 1) { s with port := encode (.recv bs) :: s.port } =
        .next { t with out := .fed (lastStatus l) })

/-- R84, R116: a length field of 1018 or more aborts at the third byte, nothing after the header is stored, and the
counters stay as computed (decision D8; `len_err` is decision D16). -/
def Obligations.LengthGuardAborts : Prop :=
  ∀ (s : State) (lo hi : Byte), s.st = .awaitStart → 1018 ≤ lengthField lo hi →
    ∃ t : State,
      exec (.feeds [0xAA, lo, hi]) s = .next t ∧ t.out = .feds [.none, .none, .lenErr] ∧
      t.st = .awaitStart ∧ t.size = 3 ∧ t.rem.toNat = lengthField lo hi + 2 ∧ t.port = s.port ∧
      t.buf.read 0 = some 0xAA ∧ t.buf.read 1 = some lo ∧ t.buf.read 2 = some hi ∧
      ∀ a, 3 ≤ a → t.buf.read a = s.buf.read a

/-- R73 and R103: any number of noise bytes without 0xAA leaves the block, and so a frame just received, untouched. -/
def Obligations.NoiseLeavesBlockUntouched : Prop :=
  ∀ (s : State) (g : List Byte), s.st = .awaitStart → 0xAA ∉ g →
    exec (.feeds g) s = .next { s with out := .feds (List.replicate g.length .none) }

/-- R80, R78: a valid frame fed from AwaitStart gives `complete` on its last byte only, and stands in the buffer. -/
def Obligations.ValidFrameCompletes : Prop :=
  ∀ (s : State) (f : List Byte), s.st = .awaitStart → validFrame f = true →
    ∃ t : State,
      exec (.feeds f) s = .next t ∧
      t.out = .feds (List.replicate (f.length - 1) .none ++ [.complete]) ∧
      t.st = .awaitStart ∧ t.size.toNat = f.length ∧ t.rem = 0 ∧ t.port = s.port ∧
      (∀ a, a < f.length → t.buf.read a = f[a]?) ∧
      (∀ a, f.length ≤ a → t.buf.read a = s.buf.read a)

/-- R82: the round trip. What ENCODE returns, fed from AwaitStart, completes on its last byte, and the accessors give
back the command id and the data. -/
def Obligations.EncodeThenFeedRoundTrip : Prop :=
  ∀ (s : State) (cmd : Byte) (w : Bool) (data : List Byte), s.st = .awaitStart → data.length ≤ 1016 →
    ∃ (f : List Byte) (t : State),
      exec (.encode cmd w data) s = .next { s with out := .frame f } ∧
      exec (.feeds f) s = .next t ∧
      t.out = .feds (List.replicate (5 + data.length) .none ++ [.complete]) ∧
      t.st = .awaitStart ∧ t.size.toNat = 6 + data.length ∧
      exec .getCmd t = .next { t with out := .u8 cmd } ∧
      exec (.getData data.length) t = .next { t with out := .data data }

/-- R83: noise without 0xAA, then a valid frame, gives exactly one completion, on the frame's last byte. -/
def Obligations.ParserResynchronises : Prop :=
  ∀ (s : State) (g f : List Byte), s.st = .awaitStart → 0xAA ∉ g → validFrame f = true →
    ∃ t : State,
      exec (.feeds (g ++ f)) s = .next t ∧
      t.out = .feds (List.replicate (g.length + f.length - 1) .none ++ [.complete]) ∧ t.st = .awaitStart

/-- R88: two valid frames back to back, with no RESET between them, each give one completion, and the buffer then holds
the second. -/
def Obligations.BackToBackFramesComplete : Prop :=
  ∀ (s : State) (f g : List Byte), s.st = .awaitStart → validFrame f = true → validFrame g = true →
    ∃ t : State,
      exec (.feeds (f ++ g)) s = .next t ∧
      t.out = .feds (List.replicate (f.length - 1) .none ++ [.complete] ++
        (List.replicate (g.length - 1) .none ++ [.complete])) ∧
      t.st = .awaitStart ∧ t.size.toNat = g.length ∧ (∀ a, a < g.length → t.buf.read a = g[a]?)

/-- R85 (a): one bit flipped anywhere but in the start marker and the ten length bits is always detected, on the last
byte (`crc_err` is decision D16). -/
def Obligations.SingleBitErrorIsDetected : Prop :=
  ∀ (s : State) (f : List Byte) (p k : Nat), s.st = .awaitStart → validFrame f = true →
    p < f.length → k < 8 → (p = 1 ∧ k < 6) ∨ 3 ≤ p →
    ∃ t : State,
      exec (.feeds (flipBit f p k)) s = .next t ∧
      t.out = .feds (List.replicate (f.length - 1) .none ++ [.crcErr]) ∧ t.st = .awaitStart

/-- R40, R44, R45: a frame on the wire with up to 1017 counted bytes takes the parser back to AwaitStart, completing
exactly when its checksum is that of the bytes before it; its bytes, from the start marker to the checksum, then stand in
the buffer, and every index after them reads as before (log 9; `crc_err` is decision D16). -/
def Obligations.FrameOnTheWireIsChecked : Prop :=
  ∀ (s : State) (w : Bool) (reserved : BitVec 5) (counted : List Byte) (checksum : Half),
    s.st = .awaitStart → counted.length ≤ 1017 →
    ∃ t : State,
      exec (.frame w reserved counted checksum) s = .next t ∧
      t.out = .feds (List.replicate (4 + counted.length) .none ++
        [if checksum = crc16 (0xAA :: halfBytes (flagsWord counted.length reserved w) ++ counted)
          then .complete else .crcErr]) ∧
      t.st = .awaitStart ∧ t.size.toNat = 5 + counted.length ∧ t.rem = 0 ∧ t.port = s.port ∧
      t.buf.read 0 = some 0xAA ∧
      t.buf.read 1 = some (lowByte (flagsWord counted.length reserved w)) ∧
      t.buf.read 2 = some (highByte (flagsWord counted.length reserved w)) ∧
      (∀ a, a < counted.length → t.buf.read (3 + a) = counted[a]?) ∧
      t.buf.read (3 + counted.length) = some (lowByte checksum) ∧
      t.buf.read (4 + counted.length) = some (highByte checksum) ∧
      (∀ a, 5 + counted.length ≤ a → t.buf.read a = s.buf.read a)

/-! ### Statements about the whole machine -/

/-- R80: `complete` comes from the row R78 and from nothing else; a run of FEEDs has it where its last FEED has. -/
def Obligations.CompleteOnlyFromLastByte : Prop :=
  (∀ (s t : State) (b : Byte), exec (.feed b) s = .next t →
    (t.complete = true ↔ selectRow b s = .next .lastOk)) ∧
  (∀ (i : Instr) (s t : State), exec i s = .next t → t.complete = true →
    (∃ b, i = .feed b) ∨ (∃ b, i = .rxLastOk b) ∨ (∃ bs, i = .feeds bs) ∨ (∃ bs, i = .recv bs) ∨
      ∃ w reserved counted checksum, i = .frame w reserved counted checksum)

/-- R20 ("they change no state, no rule reads them"), R25: no instruction reads the results or what the host has still
to issue, and none changes the latter (logs 1 and 3). -/
def Obligations.ResultsAreNeverReadBack : Prop :=
  ∀ (i : Instr) (s : State) (r : Result) (p : List Item),
    exec i { s with out := r, port := p } =
      (match exec i s with
       | .next t => .next { t with port := p }
       | .fault x => .fault x
       | .refused x => .refused x) ∧
    ∀ t, exec i s = .next t → t.port = s.port

/-- The invariant of R23 holds after reset. -/
def Obligations.InvariantHoldsAtReset : Prop := Inv State.reset

/-- R23: every step keeps the invariant. -/
def Obligations.StepKeepsInvariant : Prop :=
  ∀ s t : State, Inv s → step s = .next t → Inv t

/-! ### Encoding -/

/-- R53: decoding what a well-formed operation (or reserved code) is written as gives it back, whatever bytes follow. -/
def Obligations.DecodeEncodeOperation : Prop :=
  ∀ (i : Instr) (rest : List Byte), i.format = .hostop → i.wf = true →
    decodeOp (encodeBytes i ++ rest) = .ok (i, rest)

/-- R53, R54: each run of bytes has one meaning: what decodes is well formed and is written as those very bytes. -/
def Obligations.DecodedOperationReencodes : Prop :=
  ∀ (bs rest : List Byte) (i : Instr), decodeOp bs = .ok (i, rest) →
    i.format = .hostop ∧ i.wf = true ∧ encodeBytes i ++ rest = bs

/-- R40, R41, R43: a frame's bytes decode to its fields, and what decodes as a frame is written as those very bytes. -/
def Obligations.FrameDecodeEncode : Prop :=
  (∀ (w : Bool) (reserved : BitVec 5) (counted : List Byte) (checksum : Half) (rest : List Byte),
    counted.length ≤ 1023 →
    decodeFrame (frameBytes w reserved counted checksum ++ rest) = .ok (.frame w reserved counted checksum, rest)) ∧
  (∀ (bs rest : List Byte) (i : Instr), decodeFrame bs = .ok (i, rest) →
    i.format = .frame ∧ i.wf = true ∧ encodeBytes i ++ rest = bs)

/-- Words written out from 30_encoding.md R53 and R51 (programs P1 to P5, 95_test_vectors.md): a sanity statement. -/
def Obligations.DecodeSpecWords : Prop :=
  decodeOp [0x00] = .ok (.reset, []) ∧
  decodeOp [0x01, 0xAA] = .ok (.feed 0xAA, []) ∧
  decodeOp [0x02, 0x04, 0x00, 0xAA, 0x40, 0x00, 0x01] = .ok (.crc16 [0xAA, 0x40, 0x00, 0x01], []) ∧
  decodeOp [0x03, 0x1B, 0x00, 0x00, 0x00] = .ok (.encode 0x1B false [], []) ∧
  decodeOp [0x09] = .ok (.getU32, []) ∧
  decodeOp [0x0C, 0x04, 0x00] = .ok (.getData 4, []) ∧
  decodeFrame [0xAA, 0x40, 0x00, 0x01, 0x51, 0x8F] = .ok (.frame false 0 [0x01] 0x8F51, [])

/-- A step runs the decoded instruction: the first operation of the stream, the row the first offered byte selects, or
the frame, with the rest of the host's input kept; with no input it only clears the result (logs 1 and 2). -/
def Obligations.StepRunsDecodedInstruction : Prop :=
  ∀ (s : State) (rest : List Item),
    (∀ bs left i, s.port = .ops bs :: rest → decodeOp bs = .ok (i, left) →
      step s = exec i { s with port := if left = [] then rest else .ops left :: rest }) ∧
    (∀ b row, s.port = .rx b :: rest → selectRow b s = .next row →
      step s = exec (row.instr b) { s with port := rest }) ∧
    (∀ bs left i, s.port = .wire bs :: rest → decodeFrame bs = .ok (i, left) →
      step s = exec i { s with port := if left = [] then rest else .wire left :: rest }) ∧
    (s.port = [] → step s = .next { s with out := .nothing })

/-- What the host writes down is what runs: a well-formed operation or frame, encoded and presented, is the instruction
the next step runs. -/
def Obligations.StepRunsEncodedInstruction : Prop :=
  ∀ (s : State) (i : Instr) (rest : List Item), i.wf = true → i.format = .hostop ∨ i.format = .frame →
    s.port = encode i :: rest → step s = exec i { s with port := rest }

/-- A bare opcode-table word placed for fetching, with the parser in AwaitStart, is run by the very next step as the
instruction it decodes to (log 14). -/
def Obligations.StepRunsFetchWord : Prop :=
  ∀ (s : State) (nbits w : Nat) (i : Instr), s.st = .awaitStart → decodeTableWord nbits w = some i →
    ∃ p, step (s.withFetchWord nbits w) = exec i { s with port := p }
end

