-- ==== Sys2Proof/Laws/Bits.lean ====
section
/-! SUPPORT. Byte order and bit fields: 16-bit values against their bytes, the flags field against its parts. -/

namespace Sys2Proof

theorem half_eq_append (lo hi : Byte) : half lo hi = hi ++ lo := by
  apply BitVec.eq_of_getLsbD_eq
  intro i h
  simp only [half, BitVec.getLsbD_or, BitVec.getLsbD_setWidth, BitVec.getLsbD_shiftLeft, BitVec.getLsbD_append]
  by_cases h8 : i < 8
  · simp [h8, h]
  · have : lo.getLsbD i = false := BitVec.getLsbD_of_ge _ _ (by omega)
    simp [h8, h, this]
    intro; omega

@[simp] theorem half_toNat (lo hi : Byte) : (half lo hi).toNat = lo.toNat + 256 * hi.toNat := by
  rw [half_eq_append, BitVec.toNat_append, ← Nat.shiftLeft_add_eq_or_of_lt lo.isLt, Nat.shiftLeft_eq]
  omega

@[simp] theorem lowByte_toNat (v : Half) : (lowByte v).toNat = v.toNat % 256 := by
  simp [lowByte]

@[simp] theorem highByte_toNat (v : Half) : (highByte v).toNat = v.toNat / 256 := by
  have := v.isLt
  simp only [highByte, BitVec.toNat_setWidth, BitVec.toNat_ushiftRight, Nat.shiftRight_eq_div_pow]
  omega

@[simp] theorem half_lowByte_highByte (v : Half) : half (lowByte v) (highByte v) = v := by
  apply BitVec.eq_of_toNat_eq
  simp only [half_toNat, lowByte_toNat, highByte_toNat]
  omega

@[simp] theorem lowByte_half (lo hi : Byte) : lowByte (half lo hi) = lo := by
  have := lo.isLt
  apply BitVec.eq_of_toNat_eq
  simp only [half_toNat, lowByte_toNat]
  omega

@[simp] theorem highByte_half (lo hi : Byte) : highByte (half lo hi) = hi := by
  have := lo.isLt
  apply BitVec.eq_of_toNat_eq
  simp only [half_toNat, highByte_toNat]
  omega

/-- The length field as a number (30_encoding.md R43). -/
theorem lengthField_eq (lo hi : Byte) : lengthField lo hi = (lo.toNat + 256 * hi.toNat) / 64 := by
  simp [lengthField, Config.lenShift, Nat.shiftRight_eq_div_pow]

theorem lengthField_lt (lo hi : Byte) : lengthField lo hi < 1024 := by
  have := lo.isLt
  have := hi.isLt
  rw [lengthField_eq]
  omega

/-- The flags field as a number (30_encoding.md R41), for a length that fits its 10 bits. -/
theorem flagsWord_toNat {len : Nat} (h : len ≤ Config.lenMax) (reserved : BitVec 5) (w : Bool) :
    (flagsWord len reserved w).toNat = 64 * len + 2 * reserved.toNat + (if w then 1 else 0) := by
  have hr := reserved.isLt
  have h1 : (reserved.setWidth 16 <<< 1).toNat = 2 * reserved.toNat := by
    simp [Nat.shiftLeft_eq]; omega
  have h2 : (BitVec.ofNat 16 len <<< Config.lenShift).toNat = len <<< 6 := by
    simp only [Config.lenMax] at h
    simp [Config.lenShift, Nat.shiftLeft_eq]
    omega
  have h3 : ((if w then 1 else 0 : Half)).toNat = if w then 1 else 0 := by cases w <;> rfl
  have e : 2 * reserved.toNat ||| (if w then 1 else 0) = 2 * reserved.toNat + (if w then 1 else 0) := by
    have hs : reserved.toNat <<< 1 = 2 * reserved.toNat := by rw [Nat.shiftLeft_eq]; omega
    have := Nat.shiftLeft_add_eq_or_of_lt (i := 1) (b := if w then 1 else 0) (by cases w <;> decide) reserved.toNat
    rw [hs] at this
    exact this.symm
  rw [flagsWord, BitVec.toNat_or, BitVec.toNat_or, h1, h2, h3, Nat.or_assoc, e,
    ← Nat.shiftLeft_add_eq_or_of_lt (by cases w <;> simp <;> omega), Nat.shiftLeft_eq]
  omega

end Sys2Proof
end

