-- ==== Sys2Proof/Laws/Decode.lean ====
section
/-! SUPPORT. The counted operands of the operation stream (30_encoding.md R53): what a count and the bytes after it decode
to, both ways. -/

namespace Sys2Proof

/-- A count's two bytes give the count back. -/
theorem half_countBytes {n : Nat} (h : n ≤ maxCount) :
    half (lowByte (BitVec.ofNat 16 n)) (highByte (BitVec.ofNat 16 n)) = BitVec.ofNat 16 n ∧
      (BitVec.ofNat 16 n).toNat = n := by
  refine ⟨half_lowByte_highByte _, ?_⟩
  rw [BitVec.toNat_ofNat]
  exact Nat.mod_eq_of_lt (by simp only [maxCount] at h; omega)

/-- The two bytes a count was read from are the count's own. -/
theorem countBytes_half (lo hi : Byte) : countBytes (half lo hi).toNat = [lo, hi] := by
  simp only [countBytes, BitVec.ofNat_toNat, BitVec.setWidth_eq, halfBytes, lowByte_half, highByte_half]

/-- Splitting after the first of two lists. -/
theorem splitBytes_append (l rest : List Byte) : splitBytes l.length (l ++ rest) = .ok (l, rest) := by
  simp [splitBytes]

/-- When splitting succeeds, the two parts make up the bytes and the first has the length asked for. -/
theorem splitBytes_eq_ok {n : Nat} {bs l rest : List Byte} (h : splitBytes n bs = .ok (l, rest)) :
    l.length = n ∧ l ++ rest = bs := by
  unfold splitBytes at h
  split at h
  · cases h
  · cases h
    exact ⟨by rw [List.length_take]; omega, List.take_append_drop n bs⟩

/-- A counted sequence decodes to itself and what follows it. -/
theorem decodeCounted_append {l : List Byte} (rest : List Byte) (h : l.length ≤ maxCount) :
    decodeCounted (countBytes l.length ++ l ++ rest) = .ok (l, rest) := by
  obtain ⟨h1, h2⟩ := half_countBytes h
  show splitBytes (half _ _).toNat (l ++ rest) = _
  rw [h1, h2, splitBytes_append]

/-- What decodes as a counted sequence is written as those very bytes. -/
theorem decodeCounted_eq_ok {bs l rest : List Byte} (h : decodeCounted bs = .ok (l, rest)) :
    l.length ≤ maxCount ∧ countBytes l.length ++ l ++ rest = bs := by
  unfold decodeCounted at h
  split at h
  · rename_i lo hi tail
    obtain ⟨hl, rfl⟩ := splitBytes_eq_ok h
    refine ⟨?_, by rw [hl, countBytes_half]; rfl⟩
    have := (half lo hi).isLt
    simp only [maxCount]; omega
  · cases h

end Sys2Proof
end

