-- ==== Sys2Proof/Laws/Engine.lean ====
section
/-! SUPPORT. The CRC loop over a concatenation, and the lengths of what ENCODE builds. -/

namespace Sys2Proof.Machine

@[simp] theorem crcFrom_nil (c : Half) : crcFrom c [] = c := rfl
@[simp] theorem crcFrom_cons (c : Half) (b : Byte) (s : List Byte) : crcFrom c (b :: s) = crcFrom (crcStep c b) s := rfl

theorem crcFrom_append (c : Half) (s t : List Byte) : crcFrom c (s ++ t) = crcFrom (crcFrom c s) t := by
  induction s generalizing c with
  | nil => rfl
  | cons b s ih => simp [ih]

@[simp] theorem frameHead_length (cmd : Byte) (w : Bool) (data : List Byte) :
    (frameHead cmd w data).length = 4 + data.length := by
  simp [frameHead]; omega

@[simp] theorem encodeFrame_length (cmd : Byte) (w : Bool) (data : List Byte) :
    (encodeFrame cmd w data).length = 6 + data.length := by
  simp [encodeFrame, halfBytes]; omega

end Sys2Proof.Machine
end

