-- ==== Sys2Proof/Laws/Flags.lean ====
section
/-! SUPPORT. What the two checks of the parser say: the length guard and the checksum comparison. -/

namespace Sys2Proof.Machine

/-- The guard aborts a length field of 1018 or more (90_conflicts.md C2). -/
theorem lengthOverflow_iff (len : Nat) : lengthOverflow len = true ↔ 1018 ≤ len := by
  simp only [lengthOverflow, remainingOf, Config.remLimit, Config.crcBytes]
  constructor
  · intro h; have := of_decide_eq_true h; omega
  · intro h; exact decide_eq_true (by omega)

/-- The remaining count fits its 11 bits (70_reset_and_hazards.md R139). -/
theorem remainingOf_lt {len : Nat} (h : len < 1024) : remainingOf len < 2 ^ 11 := by
  simp only [remainingOf, Config.crcBytes]
  omega

/-- The comparison of 30_encoding.md R45. -/
theorem checksumMatches_iff (f : List Byte) :
    checksumMatches f = true ↔ crc16 (f.take (f.length - 2)) = receivedChecksum f := by
  unfold checksumMatches
  exact decide_eq_true_iff

/-- The same with the two checksum bytes in view. -/
theorem checksumMatches_append (covered : List Byte) (c0 c1 : Byte) :
    checksumMatches (covered ++ [c0, c1]) = true ↔ crc16 covered = half c0 c1 := by
  rw [checksumMatches_iff]
  simp [receivedChecksum]

end Sys2Proof.Machine
end

