-- ==== Sys2Proof/Laws/Memory.lean ====
section
/-! SUPPORT. The buffer: reads after writes, the canonical form, and what a run of bytes read is. -/

namespace Sys2Proof.Machine

@[simp] theorem Memory.read_nil (i : Nat) : Memory.read [] i = none := rfl

@[simp] theorem Memory.read_write_same (m : Memory) (i : Nat) (b : Byte) : (m.write i b).read i = some b := by
  induction m with
  | nil => simp [Memory.write, Memory.read]
  | cons c m ih =>
    obtain ⟨a, v⟩ := c
    simp only [Memory.write]
    split
    · simp [Memory.read]
    · split
      · simp [Memory.read]
      · simp [Memory.read, *]

@[simp] theorem Memory.read_write_ne (m : Memory) {i j : Nat} (b : Byte) (h : j ≠ i) :
    (m.write i b).read j = m.read j := by
  induction m with
  | nil => simp [Memory.write, Memory.read, h]
  | cons c m ih =>
    obtain ⟨a, v⟩ := c
    simp only [Memory.write]
    split
    · simp [Memory.read, h]
    · split
      · subst_vars; simp [Memory.read, h]
      · simp only [Memory.read]
        split <;> simp_all

/-- A write keeps the indices rising. -/
theorem Memory.risingFrom_write (m : Memory) {lo i : Nat} (b : Byte) (hlo : lo ≤ i) (hi : i < Config.bufCap)
    (h : Memory.risingFrom lo m = true) : Memory.risingFrom lo (m.write i b) = true := by
  induction m generalizing lo with
  | nil => simp [Memory.write, Memory.risingFrom, hlo, hi]
  | cons c m ih =>
    obtain ⟨a, v⟩ := c
    simp only [Memory.risingFrom, Bool.and_eq_true, decide_eq_true_eq] at h
    simp only [Memory.write]
    split
    · simp only [Memory.risingFrom, Bool.and_eq_true, decide_eq_true_eq]
      exact ⟨⟨hlo, hi⟩, ⟨by omega, h.1.2⟩, h.2⟩
    · split
      · subst_vars
        simp only [Memory.risingFrom, Bool.and_eq_true, decide_eq_true_eq]
        exact h
      · simp only [Memory.risingFrom, Bool.and_eq_true, decide_eq_true_eq]
        exact ⟨h.1, ih (by omega) h.2⟩

/-- Every write inside the address space keeps the canonical form. -/
theorem Memory.wf_write (m : Memory) {i : Nat} (b : Byte) (hi : i < Config.bufCap) (h : m.wf = true) :
    (m.write i b).wf = true :=
  Memory.risingFrom_write m b (Nat.zero_le i) hi h

@[simp] theorem Memory.wf_nil : Memory.wf [] = true := rfl

theorem State.reset_buf_wf : State.reset.buf.wf = true := rfl

/-- A store that answers a next state keeps the canonical form. -/
theorem storeByte_wf {i : Nat} {b : Byte} {s t : State} (h : storeByte i b s = .next t) (hs : s.buf.wf = true) :
    t.buf.wf = true := by
  unfold storeByte at h
  split at h
  · cases h; exact Memory.wf_write _ _ ‹_› hs
  · cases h

/-- All a store can do: inside the buffer, one byte written and nothing else. -/
theorem storeByte_eq_next {i : Nat} {b : Byte} {s t : State} :
    storeByte i b s = .next t ↔ i < Config.bufCap ∧ t = s.withBuf (s.buf.write i b) := by
  unfold storeByte
  split <;> simp [eq_comm, *]

/-- What a run of bytes read is: its length, and each byte at its index. -/
theorem Memory.readRange_eq_some {m : Memory} {a n : Nat} {l : List Byte} :
    m.readRange a n = some l ↔ l.length = n ∧ ∀ k, k < n → m.read (a + k) = l[k]? := by
  induction n generalizing a l with
  | zero =>
    constructor
    · intro h; cases h; simp
    · rintro ⟨h, -⟩; rw [List.length_eq_zero_iff] at h; simp [Memory.readRange, h]
  | succ n ih =>
    simp only [Memory.readRange]
    cases l with
    | nil => cases hr : m.read a <;> simp
    | cons c l =>
      constructor
      · intro h
        cases hr : m.read a with
        | none => simp [hr] at h
        | some b =>
          simp only [hr, Option.map_eq_some_iff] at h
          obtain ⟨l', h', hc⟩ := h
          cases hc
          obtain ⟨hl, hk⟩ := ih.1 h'
          refine ⟨by simp [hl], fun k hkn => ?_⟩
          cases k with
          | zero => simpa using hr
          | succ k => have := hk k (by omega); simpa [Nat.add_assoc, Nat.add_comm 1 k] using this
      · rintro ⟨hl, hk⟩
        have h0 := hk 0 (by omega)
        simp only [Nat.add_zero, List.getElem?_cons_zero] at h0
        have : m.readRange (a + 1) n = some l := ih.2 ⟨by simpa using hl, fun k hkn => by
          have := hk (k + 1) (by omega)
          simpa [Nat.add_assoc, Nat.add_comm 1 k] using this⟩
        simp [h0, this]

/-- A run of bytes can be read exactly when each of them is written. -/
theorem Memory.readRange_isSome {m : Memory} {a n : Nat} :
    (∃ l, m.readRange a n = some l) ↔ ∀ k, k < n → m.read (a + k) ≠ none := by
  induction n generalizing a with
  | zero => simp [Memory.readRange]
  | succ n ih =>
    simp only [Memory.readRange]
    constructor
    · rintro ⟨l, h⟩ k hk
      cases hr : m.read a with
      | none => simp [hr] at h
      | some b =>
        simp only [hr, Option.map_eq_some_iff] at h
        obtain ⟨l', h', -⟩ := h
        cases k with
        | zero => simp [hr]
        | succ k =>
          have := ih.1 ⟨l', h'⟩ k (by omega)
          simpa [Nat.add_assoc, Nat.add_comm 1 k] using this
    · intro h
      have h0 := h 0 (by omega)
      obtain ⟨l, hl⟩ := (ih (a := a + 1)).2 fun k hk => by
        have := h (k + 1) (by omega)
        simpa [Nat.add_assoc, Nat.add_comm 1 k] using this
      cases hr : m.read a with
      | none => simp [hr] at h0
      | some b => exact ⟨b :: l, by simp [hl]⟩

end Sys2Proof.Machine
end

