-- ==== Sys2Proof/Laws/State.lean ====
section
/-! SUPPORT. Each register update against each field of the state. -/

namespace Sys2Proof.Machine

variable (s : State) (st : ParseState) (size rem : Count) (m : Memory) (r : Result) (p : List Item)

@[simp] theorem State.withSt_st : (s.withSt st).st = st := rfl
@[simp] theorem State.withSt_size : (s.withSt st).size = s.size := rfl
@[simp] theorem State.withSt_rem : (s.withSt st).rem = s.rem := rfl
@[simp] theorem State.withSt_buf : (s.withSt st).buf = s.buf := rfl
@[simp] theorem State.withSt_out : (s.withSt st).out = s.out := rfl
@[simp] theorem State.withSt_port : (s.withSt st).port = s.port := rfl

@[simp] theorem State.withCounts_st : (s.withCounts size rem).st = s.st := rfl
@[simp] theorem State.withCounts_size : (s.withCounts size rem).size = size := rfl
@[simp] theorem State.withCounts_rem : (s.withCounts size rem).rem = rem := rfl
@[simp] theorem State.withCounts_buf : (s.withCounts size rem).buf = s.buf := rfl
@[simp] theorem State.withCounts_out : (s.withCounts size rem).out = s.out := rfl
@[simp] theorem State.withCounts_port : (s.withCounts size rem).port = s.port := rfl

@[simp] theorem State.withBuf_st : (s.withBuf m).st = s.st := rfl
@[simp] theorem State.withBuf_size : (s.withBuf m).size = s.size := rfl
@[simp] theorem State.withBuf_rem : (s.withBuf m).rem = s.rem := rfl
@[simp] theorem State.withBuf_buf : (s.withBuf m).buf = m := rfl
@[simp] theorem State.withBuf_out : (s.withBuf m).out = s.out := rfl
@[simp] theorem State.withBuf_port : (s.withBuf m).port = s.port := rfl

@[simp] theorem State.withOut_st : (s.withOut r).st = s.st := rfl
@[simp] theorem State.withOut_size : (s.withOut r).size = s.size := rfl
@[simp] theorem State.withOut_rem : (s.withOut r).rem = s.rem := rfl
@[simp] theorem State.withOut_buf : (s.withOut r).buf = s.buf := rfl
@[simp] theorem State.withOut_out : (s.withOut r).out = r := rfl
@[simp] theorem State.withOut_port : (s.withOut r).port = s.port := rfl

@[simp] theorem State.withPort_st : (s.withPort p).st = s.st := rfl
@[simp] theorem State.withPort_size : (s.withPort p).size = s.size := rfl
@[simp] theorem State.withPort_rem : (s.withPort p).rem = s.rem := rfl
@[simp] theorem State.withPort_buf : (s.withPort p).buf = s.buf := rfl
@[simp] theorem State.withPort_out : (s.withPort p).out = s.out := rfl
@[simp] theorem State.withPort_port : (s.withPort p).port = p := rfl

@[simp] theorem resetBlock_st : (resetBlock s).st = .awaitStart := rfl
@[simp] theorem resetBlock_size : (resetBlock s).size = 0 := rfl
@[simp] theorem resetBlock_rem : (resetBlock s).rem = 0 := rfl
@[simp] theorem resetBlock_buf : (resetBlock s).buf = [] := rfl
@[simp] theorem resetBlock_out : (resetBlock s).out = s.out := rfl
@[simp] theorem resetBlock_port : (resetBlock s).port = s.port := rfl

/-! Sequencing. -/

variable {α β : Type}

@[simp] theorem andThen_next (a : α) (f : α → Answer β) : andThen (.next a) f = f a := rfl
@[simp] theorem andThen_fault (x : Fault) (f : α → Answer β) : andThen (.fault x) f = .fault x := rfl
@[simp] theorem andThen_refused (x : Refusal) (f : α → Answer β) : andThen (.refused x) f = .refused x := rfl

/-- A sequence answers a next value exactly when both its parts do. -/
theorem andThen_eq_next {o : Answer α} {f : α → Answer β} {b : β} :
    andThen o f = .next b ↔ ∃ a, o = .next a ∧ f a = .next b := by
  cases o <;> simp

end Sys2Proof.Machine
end

