-- ==== Sys2Proof/Laws/Parser.lean ====
section
/-! SUPPORT. What the parser's shared operations can do: the row a byte selects, the effect of each row, FEED as the
effect of the row selected, and a list of FEEDs one byte at a time. -/

namespace Sys2Proof.Machine

/-! ### The row selected -/

theorem selectRow_awaitStart {s : State} (b : Byte) (h : s.st = .awaitStart) :
    selectRow b s = .next (if b = Config.start then .start else .drop) := by
  simp [selectRow, h, decodeRx]

theorem selectRow_readLenLow {s : State} (b : Byte) (h : s.st = .readLenLow) : selectRow b s = .next .lenLow := by
  simp [selectRow, h, decodeRx]

theorem selectRow_readLenHigh {s : State} (b : Byte) (h : s.st = .readLenHigh) : selectRow b s = .next .lenHigh := by
  simp [selectRow, h, decodeRx]

theorem selectRow_append {s : State} (b : Byte) (h : s.st = .readPayload) (hr : 1 < s.rem.toNat) :
    selectRow b s = .next .append := by
  have h0 : s.rem ≠ 0 := by rintro e; simp [e] at hr
  have h1 : s.rem ≠ 1 := by rintro e; simp [e] at hr
  simp only [selectRow, h, selectPayload, if_neg h0, if_neg h1]
  rfl

/-- The last byte of a frame: what the checksum comparison selects (R78, R79). -/
theorem selectRow_last {s : State} (b : Byte) (h : s.st = .readPayload) (hr : s.rem = 1)
    (hs : s.size.toNat < Config.bufCap) {f : List Byte}
    (hf : (s.buf.write s.size.toNat b).readRange 0 (s.size.toNat + 1) = some f) (hl : Config.crcBytes ≤ f.length) :
    selectRow b s = .next (if checksumMatches f then .lastOk else .lastBad) := by
  have hl' : 1 < f.length := hl
  simp [selectRow, h, selectPayload, hr, selectLast, storeByte, hs, hf, hl', decodeRx]

/-- A frame with its last byte just stored: the bytes stored before, then that byte. -/
theorem readRange_lastStored {m : Memory} {n : Nat} {b : Byte} {f : List Byte} (h : m.readRange 0 n = some f) :
    (m.write n b).readRange 0 (n + 1) = some (f ++ [b]) := by
  rw [Memory.readRange_eq_some] at h ⊢
  obtain ⟨hl, hk⟩ := h
  refine ⟨by simp [hl], fun k hkn => ?_⟩
  simp only [Nat.zero_add] at hk ⊢
  by_cases e : k = n
  · subst e; simp [← hl]
  · rw [Memory.read_write_ne _ _ e, hk k (by omega), List.getElem?_append_left (by omega)]

/-! ### What a row does -/

/-- FEED b answers a next state exactly by way of the one row it selects (R72). -/
theorem feedByte_eq_next {b : Byte} {s t : State} :
    feedByte b s = .next t ↔ ∃ row, selectRow b s = .next row ∧ applyRow row b s = .next t :=
  andThen_eq_next

/-- FEED b is the effect of the row selected. -/
theorem feedByte_of_selectRow {b : Byte} {s : State} {row : RxRow} (h : selectRow b s = .next row) :
    feedByte b s = applyRow row b s := by
  simp [feedByte, h]

/-- A row's own instruction is FEED where the row is the one selected. -/
theorem runRow_of_selectRow {b : Byte} {s : State} {row : RxRow} (h : selectRow b s = .next row) :
    runRow row b s = feedByte b s := by
  simp [runRow, h, feedByte_of_selectRow h]

theorem applyRow_start (b : Byte) (s : State) : applyRow .start b s =
    .next (((s.withBuf (s.buf.write 0 b)).withSt .readLenLow).withOut (.fed .none)) := by
  simp [applyRow, storeFed, storeIndex, storeByte, Config.bufCap, advance]

theorem applyRow_drop (b : Byte) (s : State) : applyRow .drop b s = .next (s.withOut (.fed .none)) := by
  simp [applyRow, storeFed, storeIndex, advance]

theorem applyRow_lenLow (b : Byte) (s : State) : applyRow .lenLow b s =
    .next (((s.withBuf (s.buf.write 1 b)).withSt .readLenHigh).withOut (.fed .none)) := by
  simp [applyRow, storeFed, storeIndex, storeByte, Config.bufCap, advance]

theorem applyRow_lenHigh {lo : Byte} (b : Byte) (s : State) (h : s.buf.read 1 = some lo) : applyRow .lenHigh b s =
    .next (lengthDecoded (lengthField lo b) (s.withBuf (s.buf.write 2 b))) := by
  simp [applyRow, storeFed, storeIndex, storeByte, Config.bufCap, advance, advanceLenHigh, h]

theorem applyRow_append (b : Byte) {s : State} (hs : s.size.toNat < Config.bufCap) : applyRow .append b s =
    .next ((countByte (s.withBuf (s.buf.write s.size.toNat b))).withOut (.fed .none)) := by
  simp [applyRow, storeFed, storeIndex, storeByte, hs, advance]

theorem applyRow_lastOk (b : Byte) {s : State} (hs : s.size.toNat < Config.bufCap) : applyRow .lastOk b s =
    .next (((countByte (s.withBuf (s.buf.write s.size.toNat b))).withSt .awaitStart).withOut (.fed .complete)) := by
  simp [applyRow, storeFed, storeIndex, storeByte, hs, advance]

theorem applyRow_lastBad (b : Byte) {s : State} (hs : s.size.toNat < Config.bufCap) : applyRow .lastBad b s =
    .next (((countByte (s.withBuf (s.buf.write s.size.toNat b))).withSt .awaitStart).withOut (.fed .crcErr)) := by
  simp [applyRow, storeFed, storeIndex, storeByte, hs, advance]

/-! ### A list of FEEDs -/

@[simp] theorem feedAll_nil (s : State) : feedAll [] s = .next (s, []) := rfl

/-- The first byte, then the rest. -/
theorem feedAll_cons_of_next {b : Byte} {bs : List Byte} {s t : State} (h : feedByte b s = .next t) :
    feedAll (b :: bs) s = andThen (feedAll bs t) fun u => .next (u.1, t.out.status :: u.2) := by
  simp [feedAll, h]

/-- Feeding two lists one after the other. -/
theorem feedAll_append {bs cs : List Byte} {s t u : State} {l l' : List Status}
    (h : feedAll bs s = .next (t, l)) (h' : feedAll cs t = .next (u, l')) :
    feedAll (bs ++ cs) s = .next (u, l ++ l') := by
  induction bs generalizing s l with
  | nil => cases h; exact h'
  | cons b bs ih =>
    obtain ⟨v, hv, h⟩ := andThen_eq_next.1 h
    obtain ⟨w, hw, h⟩ := andThen_eq_next.1 h
    cases h
    rw [List.cons_append, feedAll_cons_of_next hv, ih hw]
    rfl

end Sys2Proof.Machine
end

