-- ==== Sys2Proof/Laws/PerInstr.lean ====
section
/-! SUPPORT. One fact per constructor of Instr: the bytes an instruction is written as begin as its row of
spec/opcode_table.json says (match under mask; a row without a fixed byte, "0x00 / 0x00", admits every byte). -/

namespace Sys2Proof.Laws

/-- A row's match and mask on the first byte of the instruction; none for the rows whose table entry is "-". RECV and
FEEDS have no bytes of their own (30_encoding.md R56). -/
def FirstByte.row : Instr → Option (Byte × Byte)
  | .reset => some (0x00, 0xFF)
  | .feed _ => some (0x01, 0xFF)
  | .crc16 _ => some (0x02, 0xFF)
  | .encode _ _ _ => some (0x03, 0xFF)
  | .getCmd => some (0x04, 0xFF)
  | .getU8 => some (0x05, 0xFF)
  | .getI8 => some (0x06, 0xFF)
  | .getU16 => some (0x07, 0xFF)
  | .getI16 => some (0x08, 0xFF)
  | .getU32 => some (0x09, 0xFF)
  | .getI32 => some (0x0A, 0xFF)
  | .getStr => some (0x0B, 0xFF)
  | .getData _ => some (0x0C, 0xFF)
  | .reservedD => some (0x0D, 0xFF)
  | .reservedE => some (0x0E, 0xFF)
  | .reservedF => some (0x0F, 0xFF)
  | .reservedHigh _ => some (0x00, 0x00)
  | .feeds _ => none
  | .recv _ => none
  | .rxStart => some (0xAA, 0xFF)
  | .rxDrop _ => some (0x00, 0x00)
  | .rxLenLow _ => some (0x00, 0x00)
  | .rxLenHigh _ => some (0x00, 0x00)
  | .rxAppend _ => some (0x00, 0x00)
  | .rxLastOk _ => some (0x00, 0x00)
  | .rxLastBad _ => some (0x00, 0x00)
  | .frame _ _ _ _ => some (0xAA, 0xFF)

/-- The instruction's first byte meets its row. -/
def FirstByte.Statement (i : Instr) : Prop :=
  ∀ p, FirstByte.row i = some p → ∃ c bs, encodeBytes i = c :: bs ∧ c &&& p.2 = p.1

theorem FirstByte.reset : FirstByte.Statement .reset := fun _ h => by cases h; exact ⟨_, _, rfl, by decide⟩
theorem FirstByte.feed (b : Byte) : FirstByte.Statement (.feed b) := fun _ h => by cases h; exact ⟨_, _, rfl, by decide⟩
theorem FirstByte.crc16 (s : List Byte) : FirstByte.Statement (.crc16 s) := fun _ h => by
  cases h; exact ⟨_, _, rfl, by decide⟩
theorem FirstByte.encode (cmd : Byte) (w : Bool) (data : List Byte) : FirstByte.Statement (.encode cmd w data) :=
  fun _ h => by cases h; exact ⟨_, _, rfl, by decide⟩
theorem FirstByte.getCmd : FirstByte.Statement .getCmd := fun _ h => by cases h; exact ⟨_, _, rfl, by decide⟩
theorem FirstByte.getU8 : FirstByte.Statement .getU8 := fun _ h => by cases h; exact ⟨_, _, rfl, by decide⟩
theorem FirstByte.getI8 : FirstByte.Statement .getI8 := fun _ h => by cases h; exact ⟨_, _, rfl, by decide⟩
theorem FirstByte.getU16 : FirstByte.Statement .getU16 := fun _ h => by cases h; exact ⟨_, _, rfl, by decide⟩
theorem FirstByte.getI16 : FirstByte.Statement .getI16 := fun _ h => by cases h; exact ⟨_, _, rfl, by decide⟩
theorem FirstByte.getU32 : FirstByte.Statement .getU32 := fun _ h => by cases h; exact ⟨_, _, rfl, by decide⟩
theorem FirstByte.getI32 : FirstByte.Statement .getI32 := fun _ h => by cases h; exact ⟨_, _, rfl, by decide⟩
theorem FirstByte.getStr : FirstByte.Statement .getStr := fun _ h => by cases h; exact ⟨_, _, rfl, by decide⟩
theorem FirstByte.getData (n : Nat) : FirstByte.Statement (.getData n) := fun _ h => by
  cases h; exact ⟨_, _, rfl, by decide⟩
theorem FirstByte.reservedD : FirstByte.Statement .reservedD := fun _ h => by cases h; exact ⟨_, _, rfl, by decide⟩
theorem FirstByte.reservedE : FirstByte.Statement .reservedE := fun _ h => by cases h; exact ⟨_, _, rfl, by decide⟩
theorem FirstByte.reservedF : FirstByte.Statement .reservedF := fun _ h => by cases h; exact ⟨_, _, rfl, by decide⟩
theorem FirstByte.reservedHigh (code : Byte) : FirstByte.Statement (.reservedHigh code) := fun _ h => by
  cases h; exact ⟨_, _, rfl, by simp⟩
theorem FirstByte.feeds (bs : List Byte) : FirstByte.Statement (.feeds bs) := fun _ h => by cases h
theorem FirstByte.recv (bs : List Byte) : FirstByte.Statement (.recv bs) := fun _ h => by cases h
theorem FirstByte.rxStart : FirstByte.Statement .rxStart := fun _ h => by cases h; exact ⟨_, _, rfl, by decide⟩
theorem FirstByte.rxDrop (b : Byte) : FirstByte.Statement (.rxDrop b) := fun _ h => by
  cases h; exact ⟨_, _, rfl, by simp⟩
theorem FirstByte.rxLenLow (b : Byte) : FirstByte.Statement (.rxLenLow b) := fun _ h => by
  cases h; exact ⟨_, _, rfl, by simp⟩
theorem FirstByte.rxLenHigh (b : Byte) : FirstByte.Statement (.rxLenHigh b) := fun _ h => by
  cases h; exact ⟨_, _, rfl, by simp⟩
theorem FirstByte.rxAppend (b : Byte) : FirstByte.Statement (.rxAppend b) := fun _ h => by
  cases h; exact ⟨_, _, rfl, by simp⟩
theorem FirstByte.rxLastOk (b : Byte) : FirstByte.Statement (.rxLastOk b) := fun _ h => by
  cases h; exact ⟨_, _, rfl, by simp⟩
theorem FirstByte.rxLastBad (b : Byte) : FirstByte.Statement (.rxLastBad b) := fun _ h => by
  cases h; exact ⟨_, _, rfl, by simp⟩
theorem FirstByte.frame (w : Bool) (reserved : BitVec 5) (counted : List Byte) (checksum : Half) :
    FirstByte.Statement (.frame w reserved counted checksum) := fun _ h => by
  cases h; exact ⟨_, _, rfl, by decide⟩

end Sys2Proof.Laws
end

