-- ==== Sys2Proof/Tests/Slice0.lean ====
section
/-! SUPPORT. The model's own tests. Expected values are from 95_test_vectors.md (named in each comment), from the
encodings of 30_encoding.md written out by hand, or from the examples inside the rules; then one witness for the
hypotheses of each statement of Certificates/Slice0/Obligations.lean that has any. -/

namespace Sys2Proof.Tests

open Sys2Proof Sys2Proof.Machine

/-- The state after feeding `bs` from reset. -/
def fedState (bs : List Byte) : State :=
  match feedAll bs State.reset with
  | .next u => u.1
  | .fault _ => State.reset
  | .refused _ => State.reset

/-- The result an answer hands to the host. -/
def resultOf (a : Answer State) : Option Result :=
  match a with
  | .next t => some t.out
  | .fault _ => none
  | .refused _ => none

/-- The refusal of an answer. -/
def refusalOf (a : Answer State) : Option Refusal :=
  match a with
  | .refused r => some r
  | .next _ => none
  | .fault _ => none

/-- The state tag and the counters after an answer, as 95_test_vectors.md writes a state. -/
def regsOf (a : Answer State) : Option (ParseState × Nat × Nat) :=
  match a with
  | .next t => some (t.st, t.size.toNat, t.rem.toNat)
  | .fault _ => none
  | .refused _ => none

/-- V-E3: command 27, read, data `34 12 00 00`. -/
def frame27 : List Byte := [0xAA, 0x40, 0x01, 0x1B, 0x34, 0x12, 0x00, 0x00, 0x67, 0xAC]

/-- V-E1b: command 1, read, no data. -/
def frame1 : List Byte := [0xAA, 0x40, 0x00, 0x01, 0x51, 0x8F]

/-! ### WellFormed: an ill-formed term for each check -/

theorem test_wf_crc16_count : (Instr.crc16 (List.replicate 65536 0)).wf = false := by
  simp only [Instr.wf, List.length_replicate]; decide
theorem test_wf_encode_count : (Instr.encode 0 false (List.replicate 65536 0)).wf = false := by
  simp only [Instr.wf, List.length_replicate]; decide
theorem test_wf_getData_count : (Instr.getData 65536).wf = false := by decide
theorem test_wf_reservedHigh_nibble : (Instr.reservedHigh 0x0F).wf = false := by decide
theorem test_wf_feeds_empty : (Instr.feeds []).wf = false := by decide
theorem test_wf_recv_empty : (Instr.recv []).wf = false := by decide
theorem test_wf_rxDrop_start : (Instr.rxDrop 0xAA).wf = false := by decide
theorem test_wf_frame_length : (Instr.frame false 0 (List.replicate 1024 0) 0).wf = false := by
  simp only [Instr.wf, List.length_replicate]; decide
theorem test_wf_accepts : (Instr.getData 65535).wf = true ∧ (Instr.reservedHigh 0x10).wf = true := by decide

/-! ### Decoding: each constructor's word written out from R53, R54, R57, R40 -/

theorem test_decode_reset : decoded (decodeOp [0x00]) = some .reset := by decide
theorem test_decode_feed : decoded (decodeOp [0x01, 0xAA]) = some (.feed 0xAA) := by decide
theorem test_decode_crc16 : decoded (decodeOp [0x02, 0x04, 0x00, 0xAA, 0x40, 0x00, 0x01, 0x03]) =
    some (.crc16 [0xAA, 0x40, 0x00, 0x01]) := by decide
theorem test_decode_encode : decoded (decodeOp [0x03, 0x09, 0x01, 0x02, 0x00, 0x68, 0x69]) =
    some (.encode 0x09 true [0x68, 0x69]) := by decide
theorem test_decode_getCmd : decoded (decodeOp [0x04]) = some .getCmd := by decide
theorem test_decode_getU8 : decoded (decodeOp [0x05]) = some .getU8 := by decide
theorem test_decode_getI8 : decoded (decodeOp [0x06]) = some .getI8 := by decide
theorem test_decode_getU16 : decoded (decodeOp [0x07]) = some .getU16 := by decide
theorem test_decode_getI16 : decoded (decodeOp [0x08]) = some .getI16 := by decide
theorem test_decode_getU32 : decoded (decodeOp [0x09]) = some .getU32 := by decide
theorem test_decode_getI32 : decoded (decodeOp [0x0A]) = some .getI32 := by decide
theorem test_decode_getStr : decoded (decodeOp [0x0B]) = some .getStr := by decide
theorem test_decode_getData : decoded (decodeOp [0x0C, 0x34, 0x02]) = some (.getData 0x234) := by decide
theorem test_decode_reservedD : decoded (decodeOp [0x0D]) = some .reservedD := by decide
theorem test_decode_reservedE : decoded (decodeOp [0x0E]) = some .reservedE := by decide
theorem test_decode_reservedF : decoded (decodeOp [0x0F]) = some .reservedF := by decide
theorem test_decode_reservedHigh : decoded (decodeOp [0x10]) = some (.reservedHigh 0x10) := by decide
theorem test_decode_rxStart : (decodeRx .awaitStart false false 0xAA).instr 0xAA = .rxStart := by decide
theorem test_decode_rxDrop : (decodeRx .awaitStart false false 0x55).instr 0x55 = .rxDrop 0x55 := by decide
theorem test_decode_rxLenLow : (decodeRx .readLenLow false false 0xAA).instr 0xAA = .rxLenLow 0xAA := by decide
theorem test_decode_rxLenHigh : (decodeRx .readLenHigh false false 0x01).instr 0x01 = .rxLenHigh 0x01 := by decide
theorem test_decode_rxAppend : (decodeRx .readPayload false true 0x01).instr 0x01 = .rxAppend 0x01 := by decide
theorem test_decode_rxLastOk : (decodeRx .readPayload true true 0x8F).instr 0x8F = .rxLastOk 0x8F := by decide
theorem test_decode_rxLastBad : (decodeRx .readPayload true false 0x8E).instr 0x8E = .rxLastBad 0x8E := by decide
/-- R51's layout: `w` in bit 0 and the reserved bits in 5..1 of the second byte, L = 2 in the top bits (0xBF). -/
theorem test_decode_frame : decoded (decodeFrame [0xAA, 0xBF, 0x00, 0x05, 0x06, 0x34, 0x12]) =
    some (.frame true 0x1F [0x05, 0x06] 0x1234) := by decide
/-- Pseudo-operations are written as their expansion: program P4's first bytes. -/
theorem test_encode_recv : encodeBytes (.recv [0xAA, 0x40]) = [0x00, 0x01, 0xAA, 0x01, 0x40] := by decide
theorem test_encode_feeds : encodeBytes (.feeds [0x00, 0x55]) = [0x01, 0x00, 0x01, 0x55] := by decide
theorem test_decode_rejects : decodeOp [0x02, 0x05, 0x00, 0xAA] = .error .truncated ∧
    decodeOp [0x03, 0x00, 0x02, 0x00, 0x00] = .error (.badWriteFlag 0x02) ∧
    decodeFrame [0x2A, 0x40, 0x00] = .error .noStart := ⟨rfl, rfl, rfl⟩

/-! ### CRC engine (V-C vectors) -/

/-- V-C10a to V-C10d, V-C19, V-C20. -/
theorem test_crcStep_rows : crcStep 0x0000 0xAA = 0x14A0 ∧ crcStep 0x14A0 0x40 = 0xBA71 ∧
    crcStep 0xBA71 0x00 = 0x7791 ∧ crcStep 0x7791 0x01 = 0x8F51 ∧ crcStep 0x1234 0x56 = 0x3C40 ∧
    crcStep 0x8000 0x00 = 0x9188 := by decide
/-- V-C1, V-C4, V-C8, V-C9, V-C14, V-C15. -/
theorem test_crc16_vectors : crc16 [] = 0 ∧ crc16 [0x01] = 0x1021 ∧ crc16 [0xFF, 0xFF] = 0x1D0F ∧
    crc16 [0x31, 0x32, 0x33, 0x34, 0x35, 0x36, 0x37, 0x38, 0x39] = 0x31C3 ∧
    crc16 [0x00, 0x00, 0xAA, 0x40, 0x00, 0x01] = 0x8F51 ∧ crc16 frame1 = 0x1C9B := by decide
theorem test_execCrc16 : resultOf (exec (.crc16 [0xAA, 0x40, 0x00, 0x1B]) State.reset) = some (.crc 0x3C2A) := by decide

/-! ### Encoder (V-E vectors) -/

/-- V-E1b. -/
theorem test_encode_read : resultOf (exec (.encode 0x01 false []) State.reset) = some (.frame frame1) := by decide
/-- V-E4a, with the write flag. -/
theorem test_encode_write : resultOf (exec (.encode 0x09 true [0x68, 0x69]) State.reset) =
    some (.frame [0xAA, 0xC1, 0x00, 0x09, 0x68, 0x69, 0x5E, 0x1F]) := by decide

/-! ### Parser (V-P vectors) -/

theorem test_reset_midframe : exec .reset (fedState [0xAA, 0x40, 0x01, 0x1B, 0x34]) = .next State.reset := rfl
/-- V-P1's trace, row by row. -/
theorem test_feed_trace :
    regsOf (exec (.feed 0xAA) State.reset) = some (.readLenLow, 0, 0) ∧
    regsOf (exec (.feed 0x40) (fedState [0xAA])) = some (.readLenHigh, 0, 0) ∧
    regsOf (exec (.feed 0x00) (fedState [0xAA, 0x40])) = some (.readPayload, 3, 3) ∧
    regsOf (exec (.feed 0x01) (fedState [0xAA, 0x40, 0x00])) = some (.readPayload, 4, 2) ∧
    regsOf (exec (.feed 0x8F) (fedState [0xAA, 0x40, 0x00, 0x01, 0x51])) = some (.awaitStart, 6, 0) := by decide
/-- V-P4 at the boundary: L = 1017, 1018 and 1023. -/
theorem test_feed_guard :
    regsOf (exec (.feed 0xFE) (fedState [0xAA, 0x7F])) = some (.readPayload, 3, 1019) ∧
    regsOf (exec (.feed 0xFE) (fedState [0xAA, 0x80])) = some (.awaitStart, 3, 1020) ∧
    regsOf (exec (.feed 0xFF) (fedState [0xAA, 0xFF])) = some (.awaitStart, 3, 1025) := by decide
/-- V-P3. -/
theorem test_recv_bad : resultOf (exec (.recv [0xAA, 0x40, 0x00, 0x01, 0x51, 0x8E]) State.reset) =
    some (.feds [.none, .none, .none, .none, .none, .crcErr]) := by decide
/-- V-P15: recovery after a guard abort. -/
theorem test_recv_recovers : resultOf (exec (.recv ([0xAA, 0xFF, 0xFF] ++ frame1)) State.reset) =
    some (.feds [.none, .none, .lenErr, .none, .none, .none, .none, .none, .complete]) := by decide
/-- V-P6: 0xAA in the noise swallows the frame. -/
theorem test_feeds_phantom : regsOf (exec (.feeds (0xAA :: frame1)) State.reset) = some (.readPayload, 7, 256) := by
  decide
/-- V-P7: a truncated frame swallows the next one. -/
theorem test_feeds_truncated :
    resultOf (exec (.feeds frame1) (fedState [0xAA, 0x40, 0x01, 0x1B, 0x34, 0x12])) =
      some (.feds [.none, .none, .none, .crcErr, .none, .none]) := by decide
/-- V-P12: reserved flag bits set; V-P11: a frame with L = 0. -/
theorem test_frame_on_wire :
    resultOf (exec (.frame false 0x1F [0x01] 0x51F5) State.reset) =
      some (.feds [.none, .none, .none, .none, .none, .complete]) ∧
    resultOf (exec (.frame false 0 [] 0x7A5D) State.reset) =
      some (.feds [.none, .none, .none, .none, .complete]) := by decide
theorem test_rx_rows :
    resultOf (exec .rxStart State.reset) = some (.fed .none) ∧
    resultOf (exec (.rxDrop 0x55) State.reset) = some (.fed .none) ∧
    regsOf (exec (.rxLenLow 0xAA) (fedState [0xAA])) = some (.readLenHigh, 0, 0) ∧
    regsOf (exec (.rxLenHigh 0x01) (fedState [0xAA, 0x40])) = some (.readPayload, 3, 7) ∧
    regsOf (exec (.rxAppend 0x01) (fedState [0xAA, 0x40, 0x00])) = some (.readPayload, 4, 2) := by decide
theorem test_rx_last_rows :
    resultOf (exec (.rxLastOk 0x8F) (fedState [0xAA, 0x40, 0x00, 0x01, 0x51])) = some (.fed .complete) ∧
    resultOf (exec (.rxLastBad 0x8E) (fedState [0xAA, 0x40, 0x00, 0x01, 0x51])) = some (.fed .crcErr) ∧
    refusalOf (exec (.rxLastOk 0x8E) (fedState [0xAA, 0x40, 0x00, 0x01, 0x51])) = some (.rowNotSelected .lastOk) ∧
    refusalOf (exec .rxStart (fedState [0xAA])) = some (.rowNotSelected .start) := by decide

/-! ### Accessors (V-A vectors) -/

/-- V-A1. -/
theorem test_accessors_27 :
    resultOf (exec .getCmd (fedState frame27)) = some (.u8 27) ∧
    resultOf (exec .getU8 (fedState frame27)) = some (.u8 52) ∧
    resultOf (exec .getU16 (fedState frame27)) = some (.u16 4660) ∧
    resultOf (exec .getU32 (fedState frame27)) = some (.u32 4660) ∧
    resultOf (exec .getStr (fedState frame27)) = some (.str 2 [0x34, 0x12]) := by decide
/-- V-A2: data `85 FF FF FF`. -/
theorem test_accessors_signed :
    resultOf (exec .getI8 (fedState [0xAA, 0x40, 0x01, 0x1B, 0x85, 0xFF, 0xFF, 0xFF])) = some (.i8 (-123)) ∧
    resultOf (exec .getI16 (fedState [0xAA, 0x40, 0x01, 0x1B, 0x85, 0xFF, 0xFF, 0xFF])) = some (.i16 (-123)) ∧
    resultOf (exec .getI32 (fedState [0xAA, 0x40, 0x01, 0x1B, 0x85, 0xFF, 0xFF, 0xFF])) = some (.i32 (-123)) ∧
    resultOf (exec .getI32 (fedState [0xAA, 0x40, 0x01, 0x1B, 0xFF, 0xFF, 0xFF, 0x7F])) =
      some (.i32 2147483647) := by decide
/-- V-A9, the known edge case: sixteen letters and no zero byte. -/
theorem test_getStr_no_zero : resultOf (exec .getStr (fedState ([0xAA, 0x40, 0x04, 0x03, 0x41, 0x42, 0x43, 0x44, 0x45,
    0x46, 0x47, 0x48, 0x49, 0x4A, 0x4B, 0x4C, 0x4D, 0x4E, 0x4F, 0x50]))) = some (.str 0 []) := by decide
/-- V-A3b: no zero before an unwritten byte. -/
theorem test_getStr_unwritten : refusalOf (exec .getStr (fedState [0xAA, 0x40, 0x01, 0x1B, 0xFF, 0x7F])) =
    some .unwrittenByte := by decide
/-- V-A12. -/
theorem test_getData :
    resultOf (exec (.getData 0) State.reset) = some (.data []) ∧
    resultOf (exec (.getData 6) (fedState frame27)) = some (.data [0x34, 0x12, 0x00, 0x00, 0x67, 0xAC]) ∧
    refusalOf (exec (.getData 7) (fedState frame27)) = some .unwrittenByte ∧
    refusalOf (exec (.getData 1021) (fedState frame27)) = some (.beyondBuffer 1021) := by decide
/-- V-A6: nothing received. -/
theorem test_accessors_reset : refusalOf (exec .getCmd State.reset) = some .unwrittenByte ∧
    refusalOf (exec .getI32 State.reset) = some .unwrittenByte := by decide
theorem test_reserved : refusalOf (exec .reservedE State.reset) = some (.reservedCode 0x0E) := by decide

/-! ### Fetching -/

/-- Program P5's bytes after its two FEEDs: CRC16 in the middle of a frame. -/
theorem test_step_crc16 :
    resultOf (step { fedState [0xAA, 0x40] with port := [.ops [0x02, 0x02, 0x00, 0xAA, 0x40, 0x04]] }) =
      some (.crc 0xBA71) := by decide
/-- Bare words of the opcode table (log 14). -/
theorem test_table_words : decodeTableWord 8 0x03 = some (.encode 0 false []) ∧
    decodeTableWord 16 0x0008 = some .getI16 ∧ decodeTableWord 8 0x0F = some .reservedF ∧
    decodeTableWord 8 0xAA = some .rxStart ∧ decodeTableWord 32 0x000000AA = some (.frame false 0 [] 0) ∧
    decodeTableWord 32 0x010040AA = some (.frame false 0 [0x01] 0) := by decide
theorem test_fetch_word : regsOf (step (State.reset.withFetchWord 8 0xAA)) = some (.readLenLow, 0, 0) ∧
    resultOf (step (State.reset.withFetchWord 32 0xAA)) = some (.feds [.none, .none, .none, .none, .crcErr]) ∧
    resultOf (step (State.reset.withFetchWord 8 0x02)) = some (.crc 0) := by decide

/-! ### Witnesses: each statement's hypotheses are met together -/

/-- The state after `AA 40 00` (V-P1 step 3): a payload of three bytes to come. -/
def payloadState : State := fedState [0xAA, 0x40, 0x00]

/-- The state after `AA 40 00 01 51` (V-P1 step 5): one byte to come. -/
def lastState : State := fedState [0xAA, 0x40, 0x00, 0x01, 0x51]

/-- R23 in the middle of a frame: FeedIsTotal, FeedAppendsByte, FeedListsComplete, PseudoOperationsRunAsExpansion,
GetDataAbove1018IsRefused and StepKeepsInvariant are not empty. -/
theorem test_witness_inv_payload : Inv payloadState where
  canonical := by decide
  topUnwritten := by
    intro i hi
    have h : payloadState.buf = [(0, 0xAA), (1, 0x40), (2, 0x00)] := by decide
    rw [h]
    simp only [Memory.read, if_neg (show i ≠ 0 by omega), if_neg (show i ≠ 1 by omega), if_neg (show i ≠ 2 by omega)]
  sizeBound := by decide
  remBound := by decide
  startStored := by decide
  lowStored := fun h => absurd h (by decide)
  payloadSize := by decide
  payloadRem := by decide
  payloadLength := by decide
  payloadStored := by
    intro _ i hi
    have hs : payloadState.size.toNat = 3 := by decide
    have h : payloadState.buf = [(0, 0xAA), (1, 0x40), (2, 0x00)] := by decide
    rw [hs] at hi
    rw [h]
    interval_cases i <;> simp [written, Memory.read]

theorem test_witness_stepKeepsInvariant : ∃ t, step payloadState = .next t ∧ t.st = .readPayload :=
  ⟨_, rfl, by decide⟩
theorem test_witness_feedDropsNoise : State.reset.st = .awaitStart ∧ (0x55 : Byte) ≠ 0xAA := by decide
theorem test_witness_feedStoresFlagsLow : (fedState [0xAA]).st = .readLenLow := by decide
/-- Both outcomes of the guard: L = 1017 with 0x7F, L = 1018 with 0x80. -/
theorem test_witness_feedDecodesLength :
    (fedState [0xAA, 0x7F]).st = .readLenHigh ∧ (fedState [0xAA, 0x7F]).buf.read 1 = some 0x7F ∧
    (fedState [0xAA, 0x80]).st = .readLenHigh ∧ (fedState [0xAA, 0x80]).buf.read 1 = some 0x80 ∧
    lengthField 0x7F 0xFE = 1017 ∧ lengthField 0x80 0xFE = 1018 := by decide
/-- At the boundary `rem` = 2, in a state that meets the invariant's bound. -/
theorem test_witness_feedAppendsByte :
    payloadState.st = .readPayload ∧ 1 < payloadState.rem.toNat ∧ payloadState.size.toNat < 1024 ∧
    (fedState [0xAA, 0x40, 0x00, 0x01]).rem.toNat = 2 := by decide
theorem test_witness_feedLast :
    lastState.st = .readPayload ∧ lastState.rem = 1 ∧ lastState.size.toNat = 5 ∧
    lastState.buf.read 4 = some 0x51 ∧
    (∀ k, k < 4 → lastState.buf.read k = ([0xAA, 0x40, 0x00, 0x01] : List Byte)[k]?) ∧
    (crc16 [0xAA, 0x40, 0x00, 0x01]).toNat = (0x51 : Byte).toNat + 256 * (0x8F : Byte).toNat ∧
    (crc16 [0xAA, 0x40, 0x00, 0x01]).toNat ≠ (0x51 : Byte).toNat + 256 * (0x8E : Byte).toNat := by decide
/-- R23 at the last byte: FeedCompletesFrame's clause under the invariant is not empty. -/
theorem test_witness_inv_last : Inv lastState where
  canonical := by decide
  topUnwritten := by
    intro i hi
    have h : lastState.buf = [(0, 0xAA), (1, 0x40), (2, 0x00), (3, 0x01), (4, 0x51)] := by decide
    rw [h]
    simp only [Memory.read, if_neg (show i ≠ 0 by omega), if_neg (show i ≠ 1 by omega), if_neg (show i ≠ 2 by omega),
      if_neg (show i ≠ 3 by omega), if_neg (show i ≠ 4 by omega)]
  sizeBound := by decide
  remBound := by decide
  startStored := by decide
  lowStored := fun h => absurd h (by decide)
  payloadSize := by decide
  payloadRem := by decide
  payloadLength := by decide
  payloadStored := by
    intro _ i hi
    have hs : lastState.size.toNat = 5 := by decide
    have h : lastState.buf = [(0, 0xAA), (1, 0x40), (2, 0x00), (3, 0x01), (4, 0x51)] := by decide
    rw [hs] at hi
    rw [h]
    interval_cases i <;> simp [written, Memory.read]

/-- A row selected and another row, for both parts of ByteDecodeSelectsOneRow. -/
theorem test_witness_byteDecode : selectRow 0x55 State.reset = .next .drop ∧ RxRow.append ≠ .drop ∧
    selectRow 0x8F lastState = .next .lastOk := ⟨rfl, by decide, rfl⟩
theorem test_witness_feedFrame : ∃ t, exec (.feed 0x01) payloadState = .next t ∧
    selectRow 0x01 payloadState = .next .append ∧ storeIndex .append payloadState = some 3 :=
  ⟨_, rfl, rfl, by decide⟩
theorem test_witness_feedFrame_row : ∃ t, exec (RxRow.start.instr 0xAA) State.reset = .next t := ⟨_, rfl⟩
/-- A run of FEEDs that stores at some indices and not at others. -/
theorem test_witness_feedListFrame : (∃ t, exec (.feeds [0x01, 0x51]) payloadState = .next t) ∧
    (∃ t, exec (.recv [0xAA, 0x40]) payloadState = .next t) ∧
    storedIndices [0x01, 0x51] payloadState = [3, 4] ∧
    storedIndices [0xAA, 0x40] (resetBlock payloadState) = [0, 1] := ⟨⟨_, rfl⟩, ⟨_, rfl⟩, by decide, by decide⟩
theorem test_witness_feedListFrame_frame : ∃ t, exec (.frame false 0 [0x01] 0x8F51) State.reset = .next t := ⟨_, rfl⟩
theorem test_witness_crc16IsLinear : ([0xAA, 0x40] : List Byte).length = ([0x00, 0x01] : List Byte).length := by decide
/-- The boundary lengths of ENCODE: 1022 completes, 1023 is refused; 1016 and 1017 for the parser's limit. -/
theorem test_witness_encode : (List.replicate 1022 (0 : Byte)).length ≤ 1022 ∧
    1022 < (List.replicate 1023 (0 : Byte)).length ∧ (List.replicate 1016 (0 : Byte)).length ≤ 1016 ∧
    1016 < (List.replicate 1017 (0 : Byte)).length ∧ (List.replicate 1017 (0 : Byte)).length ≤ 1022 := by
  simp only [List.length_replicate]; decide
theorem test_witness_crc16_count : (List.replicate 65535 (0 : Byte)).length ≤ 65535 := by
  simp only [List.length_replicate]; decide
/-- ValidFrameCompletes, ParserResynchronises, BackToBackFramesComplete, WellFormedFrameIsEncoded. -/
theorem test_witness_validFrame : validFrame frame1 = true ∧ wellFormedFrame frame27 = true ∧
    State.reset.st = .awaitStart ∧ validFrame [0xAA, 0x00, 0x00, 0x5D, 0x7A] = true := by decide
theorem test_witness_accessors : (fedState frame27).buf.read 3 = some 0x1B ∧
    (fedState frame27).buf.read 4 = some 0x34 ∧ (fedState frame27).buf.read 5 = some 0x12 ∧
    (fedState frame27).buf.read 6 = some 0x00 ∧ (fedState frame27).buf.read 7 = some 0x00 := by decide
/-- The refused side of every accessor, and a state where only the later bytes are unwritten (V-A4). -/
theorem test_witness_accessors_unwritten : State.reset.buf.read 3 = none ∧ State.reset.buf.read 4 = none ∧
    (fedState frame1).buf.read 5 = some 0x8F ∧ (fedState frame1).buf.read 6 = none ∧
    (fedState [0xAA, 0x00, 0x00, 0x5D, 0x7A]).buf.read 5 = none := by decide
/-- The three clauses of GetStrScansWindow: a zero after two bytes; sixteen bytes; an unwritten byte after two. -/
theorem test_witness_getStr :
    ((0 : Byte) ∉ ([0x34, 0x12] : List Byte)) ∧
    (∀ k, k < 2 → (fedState frame27).buf.read (4 + k) = ([0x34, 0x12] : List Byte)[k]?) ∧
    (fedState frame27).buf.read 6 = some 0 ∧
    (∀ k, k < 2 → (fedState frame1).buf.read (4 + k) = ([0x51, 0x8F] : List Byte)[k]?) ∧
    (fedState frame1).buf.read 6 = none := by decide
theorem test_witness_getStr_full : ∀ k, k < 16 →
    (fedState ([0xAA, 0x40, 0x04, 0x03] ++ List.replicate 16 0x41)).buf.read (4 + k) =
      (List.replicate 16 (0x41 : Byte))[k]? := by decide
theorem test_witness_getData : (∀ k, k < 4 → (fedState frame27).buf.read (4 + k) =
      ([0x34, 0x12, 0x00, 0x00] : List Byte)[k]?) ∧
    (fedState frame27).buf.read (4 + 6) = none ∧ 4 + 1020 ≤ 1024 ∧ 1024 < 4 + 1021 ∧ 1018 < 1019 := by decide
theorem test_witness_accessorsOnlyRead : (fedState frame27).buf = { fedState frame27 with st := .readLenLow }.buf := rfl
theorem test_witness_accessorWidths :
    (∃ t, exec .getU32 (fedState frame27) = .next t ∧ t.out = .u32 4660) ∧
    (∃ t, exec .getU16 (fedState frame27) = .next t ∧ t.out = .u16 4660) :=
  ⟨⟨_, rfl, by decide⟩, ⟨_, rfl, by decide⟩⟩
theorem test_witness_lengthGuard : 1018 ≤ lengthField 0x80 0xFE ∧ 1018 ≤ lengthField 0xFF 0xFF := by decide
theorem test_witness_noise : (0xAA : Byte) ∉ ([0x00, 0x55, 0xFF] : List Byte) := by decide
theorem test_witness_lists_nonempty : ([0xAA] : List Byte) ≠ [] := by decide
/-- Both kinds of position of SingleBitErrorIsDetected, at their ends: bits 0 and 5 of the second byte, the first bit of
the fourth byte, and the last bit of the frame. -/
theorem test_witness_singleBit : validFrame frame1 = true ∧ 1 < frame1.length ∧ 5 < frame1.length ∧
    flipBit frame1 1 0 = [0xAA, 0x41, 0x00, 0x01, 0x51, 0x8F] ∧
    flipBit frame1 1 5 = [0xAA, 0x60, 0x00, 0x01, 0x51, 0x8F] ∧
    flipBit frame1 3 0 = [0xAA, 0x40, 0x00, 0x00, 0x51, 0x8F] ∧
    flipBit frame1 5 7 = [0xAA, 0x40, 0x00, 0x01, 0x51, 0x0F] := by decide
theorem test_witness_frameOnTheWire : (List.replicate 1017 (0 : Byte)).length ≤ 1017 := by
  simp only [List.length_replicate]; decide
theorem test_witness_complete : ∃ t, exec (.feed 0x8F) lastState = .next t ∧ t.complete = true := ⟨_, rfl, by decide⟩
theorem test_witness_format : (Instr.getData 4).format = .hostop ∧ (Instr.getData 4).wf = true ∧
    (Instr.frame false 0 [0x01] 0x8F51).format = .frame ∧ (Instr.frame false 0 [0x01] 0x8F51).wf = true := by decide
theorem test_witness_decoded : decodeOp [0x01, 0xAA, 0x04] = .ok (.feed 0xAA, [0x04]) := rfl
theorem test_witness_decodedFrame : decodeFrame (frame1 ++ [0x00]) = .ok (.frame false 0 [0x01] 0x8F51, [0x00]) := rfl
theorem test_witness_step : ({ State.reset with port := [.rx 0xAA] }).port = .rx 0xAA :: [] ∧
    selectRow 0xAA { State.reset with port := [.rx 0xAA] } = .next .start ∧
    ({ State.reset with port := [.wire frame1] }).port = .wire frame1 :: [] ∧
    encode (.getData 4) = .ops [0x0C, 0x04, 0x00] := ⟨rfl, rfl, rfl, rfl⟩
theorem test_witness_fetchWord : decodeTableWord 8 0x04 = some .getCmd ∧ State.reset.st = .awaitStart := by decide

end Sys2Proof.Tests
end

/-! PROOFS of the family 10_state.md: what an instruction can do to the block, the invariant of R23 along every step, and
that no instruction reads the results or the pending input (R20, R25). -/

namespace Sys2Proof.Machine

/-! ### What an instruction can do -/

/-- When row `row` can be the one that byte `b` selects (R57, R72), the checksum comparison of the last byte left aside. -/
def RowGuard (b : Byte) (s : State) : RxRow → Prop
  | .start => s.st = .awaitStart ∧ b = Config.start
  | .drop => s.st = .awaitStart ∧ b ≠ Config.start
  | .lenLow => s.st = .readLenLow
  | .lenHigh => s.st = .readLenHigh
  | .append => s.st = .readPayload ∧ 1 < s.rem.toNat
  | .lastOk | .lastBad => s.st = .readPayload ∧ s.rem = 1

theorem selectLast_eq_next {b : Byte} {s : State} {row : RxRow} (h : selectLast b s = .next row) :
    row = .lastOk ∨ row = .lastBad := by
  obtain ⟨u, -, h⟩ := andThen_eq_next.1 h
  split at h
  · cases h
  next f _ =>
    split at h
    · cases h
    · cases h
      cases checksumMatches f
      · exact .inr rfl
      · exact .inl rfl

theorem selectPayload_guard {b : Byte} {s : State} {row : RxRow} (hst : s.st = .readPayload)
    (h : selectPayload b s = .next row) : RowGuard b s row := by
  unfold selectPayload at h
  split at h
  · cases h
  next h0 =>
    split at h
    next h1 => obtain rfl | rfl := selectLast_eq_next h <;> exact ⟨hst, h1⟩
    next h1 => cases h; exact ⟨hst, by bv_omega⟩

/-- The row selected meets its guard. -/
theorem selectRow_guard {b : Byte} {s : State} {row : RxRow} (h : selectRow b s = .next row) : RowGuard b s row := by
  cases hst : s.st with
  | awaitStart =>
    rw [selectRow_awaitStart b hst] at h
    cases h
    split
    next hb => exact ⟨hst, hb⟩
    next hb => exact ⟨hst, hb⟩
  | readLenLow => rw [selectRow_readLenLow b hst] at h; cases h; exact hst
  | readLenHigh => rw [selectRow_readLenHigh b hst] at h; cases h; exact hst
  | readPayload => exact selectPayload_guard hst (by simpa only [selectRow, hst] using h)

/-- A row's own instruction does nothing that FEED does not do (log 7). -/
theorem feedByte_of_runRow {row : RxRow} {b : Byte} {s t : State} (h : runRow row b s = .next t) :
    feedByte b s = .next t := by
  obtain ⟨selected, hsel, h⟩ := andThen_eq_next.1 h
  split at h
  next e => subst e; exact feedByte_eq_next.2 ⟨selected, hsel, h⟩
  · cases h

theorem returnRead_eq_next {addr n : Nat} {result : Nat → Result} {s t : State}
    (h : returnRead addr n result s = .next t) : ∃ r, t = s.withOut r := by
  unfold returnRead at h
  split at h
  · cases h
  · cases h; exact ⟨_, rfl⟩

theorem execGetStr_eq_next {s t : State} (h : execGetStr s = .next t) : ∃ r, t = s.withOut r := by
  unfold execGetStr at h
  split at h
  · cases h; exact ⟨_, rfl⟩
  · cases h; exact ⟨_, rfl⟩
  · cases h

theorem execGetData_eq_next {n : Nat} {s t : State} (h : execGetData n s = .next t) : ∃ r, t = s.withOut r := by
  unfold execGetData at h
  split at h
  · cases h
  · split at h
    · cases h
    · cases h; exact ⟨_, rfl⟩

theorem execEncode_eq_next {cmd : Byte} {w : Bool} {data : List Byte} {s t : State}
    (h : execEncode cmd w data s = .next t) : ∃ r, t = s.withOut r := by
  unfold execEncode at h
  split at h
  · cases h; exact ⟨_, rfl⟩
  · cases h

/-- All that an instruction can do to `s`: hand over a result, reset the block, feed one byte, or feed a list of bytes
from `s` or from the reset block. -/
inductive Effect (s t : State) : Prop where
  | result (h : ∃ r, t = s.withOut r)
  | reset (h : t = (resetBlock s).withOut .nothing)
  | fed (b : Byte) (h : feedByte b s = .next t)
  | feds (bs : List Byte) (h : feedList bs s = .next t)
  | recv (bs : List Byte) (h : feedList bs (resetBlock s) = .next t)

/-- An instruction that answers a next state has one of the five effects. -/
theorem exec_effect {i : Instr} {s t : State} (h : exec i s = .next t) : Effect s t := by
  cases i with
  | reset => cases h; exact .reset rfl
  | crc16 => cases h; exact .result ⟨_, rfl⟩
  | encode => exact .result (execEncode_eq_next h)
  | getCmd | getU8 | getI8 | getU16 | getI16 | getU32 | getI32 => exact .result (returnRead_eq_next h)
  | getStr => exact .result (execGetStr_eq_next h)
  | getData => exact .result (execGetData_eq_next h)
  | reservedD | reservedE | reservedF | reservedHigh => cases h
  | feed b => exact .fed b h
  | rxStart => exact .fed _ (feedByte_of_runRow h)
  | rxDrop b | rxLenLow b | rxLenHigh b | rxAppend b | rxLastOk b | rxLastBad b =>
    exact .fed b (feedByte_of_runRow h)
  | feeds bs => exact .feds bs h
  | recv bs => exact .recv bs h
  | frame w reserved counted checksum => exact .feds _ h

/-- A step that answers a next state is idle, or runs an instruction after taking it off the host's input. -/
theorem step_eq_next {s t : State} (h : step s = .next t) :
    t = idle s ∨ ∃ i p, exec i (s.withPort p) = .next t := by
  unfold step at h
  split at h
  · cases h; exact .inl rfl
  · exact .inr ⟨_, _, h⟩
  · cases h
  · cases h

/-! ### The counters and the buffer -/

@[simp] theorem countByte_st (s : State) : (countByte s).st = s.st := rfl
@[simp] theorem countByte_size (s : State) : (countByte s).size = s.size + 1 := rfl
@[simp] theorem countByte_rem (s : State) : (countByte s).rem = s.rem - 1 := rfl
@[simp] theorem countByte_buf (s : State) : (countByte s).buf = s.buf := rfl

/-- Below its 11-bit end `size` does not wrap. -/
theorem countByte_size_toNat {s : State} (h : s.size.toNat < 2047) : (countByte s).size.toNat = s.size.toNat + 1 := by
  rw [countByte_size]; bv_omega

/-- Above 0 `rem` does not wrap. -/
theorem countByte_rem_toNat {s : State} (h : 1 ≤ s.rem.toNat) : (countByte s).rem.toNat = s.rem.toNat - 1 := by
  rw [countByte_rem]; bv_omega

/-- R76's guard as a number (90_conflicts.md C2). -/
theorem lengthDecoded_st (len : Nat) (s : State) :
    (lengthDecoded len s).st = if 1018 ≤ len then .awaitStart else .readPayload := by
  simp only [lengthDecoded, lengthOverflow_iff]
  split <;> rfl

@[simp] theorem lengthDecoded_size (len : Nat) (s : State) : (lengthDecoded len s).size = 3 := by
  simp only [lengthDecoded]
  split <;> rfl

theorem lengthDecoded_rem_toNat {len : Nat} (h : len < 1024) (s : State) :
    (lengthDecoded len s).rem.toNat = len + 2 := by
  have hrem : (lengthDecoded len s).rem = BitVec.ofNat 11 (remainingOf len) := by
    simp only [lengthDecoded]
    split <;> rfl
  rw [hrem, BitVec.toNat_ofNat, Nat.mod_eq_of_lt (remainingOf_lt h)]
  rfl

@[simp] theorem lengthDecoded_buf (len : Nat) (s : State) : (lengthDecoded len s).buf = s.buf := by
  simp only [lengthDecoded]
  split <;> rfl

theorem written_write_same (m : Memory) (i : Nat) (b : Byte) : written (m.write i b) i := by simp [written]

/-- A write unwrites nothing. -/
theorem written_write {m : Memory} {j : Nat} (i : Nat) (b : Byte) (h : written m j) : written (m.write i b) j := by
  by_cases e : j = i
  · subst e; exact written_write_same m j b
  · simpa [written, e] using h

/-- Bytes stored from index 3 on leave the stored length field. -/
theorem storedLength_write (m : Memory) {i : Nat} (b : Byte) (hi : 3 ≤ i) :
    storedLength (m.write i b) = storedLength m := by
  simp only [storedLength, Memory.read_write_ne m b (show 1 ≠ i by omega), Memory.read_write_ne m b (show 2 ≠ i by omega)]

/-- The high flag byte just stored completes the length field (R43). -/
theorem storedLength_write_high {m : Memory} {lo : Byte} (b : Byte) (h : m.read 1 = some lo) :
    storedLength (m.write 2 b) = lengthField lo b := by
  simp [storedLength, h]

section
variable {s : State} (h : Inv s)
include h

theorem Inv.wf_write {i : Nat} (b : Byte) (hi : i < 1022) : (s.buf.write i b).wf = true :=
  Memory.wf_write _ b (by simp only [Config.bufCap]; omega) h.canonical

theorem Inv.topUnwritten_write {i : Nat} (b : Byte) (hi : i < 1022) (j : Nat) (hj : 1022 ≤ j) :
    (s.buf.write i b).read j = none := by
  rw [Memory.read_write_ne _ b (by omega)]
  exact h.topUnwritten j hj

/-! ### The invariant under each update (R23) -/

theorem Inv.withOut (r : Result) : Inv (s.withOut r) where
  __ := h

theorem Inv.withPort (p : List Item) : Inv (s.withPort p) where
  __ := h

end

/-- In AwaitStart only the buffer's form and the counters' bounds are left to show. -/
theorem inv_of_awaitStart {s : State} (hst : s.st = .awaitStart) (hwf : s.buf.wf = true)
    (htop : ∀ i, 1022 ≤ i → s.buf.read i = none) (hsize : s.size.toNat ≤ 1022) (hrem : s.rem.toNat ≤ 1025) : Inv s where
  canonical := hwf
  topUnwritten := htop
  sizeBound := hsize
  remBound := hrem
  startStored hne := absurd hst hne
  lowStored e := by simp [hst] at e
  payloadSize e := by simp [hst] at e
  payloadRem e := by simp [hst] at e
  payloadLength e := by simp [hst] at e
  payloadStored e := by simp [hst] at e

theorem inv_resetBlock (s : State) : Inv (resetBlock s) :=
  inv_of_awaitStart rfl rfl (fun _ _ => rfl) (Nat.zero_le _) (Nat.zero_le _)

/-! ### The invariant under each row of the byte decode (R73 to R79) -/

section
variable {s : State} (h : Inv s)
include h

/-- R74. -/
theorem Inv.storeStart : Inv ((s.withBuf (s.buf.write 0 Config.start)).withSt .readLenLow) where
  canonical := h.wf_write _ (by decide)
  topUnwritten := h.topUnwritten_write _ (by decide)
  sizeBound := h.sizeBound
  remBound := h.remBound
  startStored _ := Memory.read_write_same ..
  lowStored := nofun
  payloadSize := nofun
  payloadRem := nofun
  payloadLength := nofun
  payloadStored := nofun

/-- R75. -/
theorem Inv.storeLow (b : Byte) (hst : s.st = .readLenLow) :
    Inv ((s.withBuf (s.buf.write 1 b)).withSt .readLenHigh) where
  canonical := h.wf_write _ (by decide)
  topUnwritten := h.topUnwritten_write _ (by decide)
  sizeBound := h.sizeBound
  remBound := h.remBound
  startStored _ := by simpa using h.startStored (by simp [hst])
  lowStored _ := written_write_same _ _ _
  payloadSize := nofun
  payloadRem := nofun
  payloadLength := nofun
  payloadStored := nofun

/-- R76: the guard lets only a length through whose frame ends below index 1022. -/
theorem Inv.storeHigh {lo : Byte} (b : Byte) (hst : s.st = .readLenHigh) (hlo : s.buf.read 1 = some lo) :
    Inv (lengthDecoded (lengthField lo b) (s.withBuf (s.buf.write 2 b))) := by
  have hlt := lengthField_lt lo b
  have hrem := lengthDecoded_rem_toNat hlt (s.withBuf (s.buf.write 2 b))
  have hsize : (lengthDecoded (lengthField lo b) (s.withBuf (s.buf.write 2 b))).size.toNat = 3 := by simp
  have hbuf : (lengthDecoded (lengthField lo b) (s.withBuf (s.buf.write 2 b))).buf = s.buf.write 2 b := by simp
  have hwf := h.wf_write b (show 2 < 1022 by decide)
  have htop := h.topUnwritten_write b (show 2 < 1022 by decide)
  have hstart := h.startStored (by simp [hst])
  by_cases hguard : 1018 ≤ lengthField lo b
  · have hst' := (lengthDecoded_st _ (s.withBuf (s.buf.write 2 b))).trans (if_pos hguard)
    exact inv_of_awaitStart hst' (by rwa [hbuf]) (by rwa [hbuf]) (by omega) (by omega)
  · have hst' := (lengthDecoded_st _ (s.withBuf (s.buf.write 2 b))).trans (if_neg hguard)
    have hlen := storedLength_write_high b hlo
    exact
      { canonical := by rwa [hbuf]
        topUnwritten := by rwa [hbuf]
        sizeBound := by omega
        remBound := by omega
        startStored := fun _ => by simpa using hstart
        lowStored := fun e => by simp [hst'] at e
        payloadSize := fun _ => by omega
        payloadRem := fun _ => by omega
        payloadLength := fun _ => by rw [hsize, hrem, hbuf, hlen]; omega
        payloadStored := fun _ i hi => by
          rw [hsize] at hi
          rw [hbuf]
          interval_cases i
          · exact written_write _ _ (by simp [written, hstart])
          · exact written_write _ _ (h.lowStored hst)
          · exact written_write_same _ _ _ }

/-- R77: a byte that is not the last leaves room for the rest. -/
theorem Inv.storeAppend (b : Byte) (hst : s.st = .readPayload) (hr : 1 < s.rem.toNat) :
    Inv (countByte (s.withBuf (s.buf.write s.size.toNat b))) := by
  obtain ⟨hsize, hsize1021⟩ := h.payloadSize hst
  obtain ⟨-, hrem1019⟩ := h.payloadRem hst
  obtain ⟨hsum, hfit⟩ := h.payloadLength hst
  have hsize' : (countByte (s.withBuf (s.buf.write s.size.toNat b))).size.toNat = s.size.toNat + 1 :=
    countByte_size_toNat (by simp only [State.withBuf_size]; omega)
  have hrem' : (countByte (s.withBuf (s.buf.write s.size.toNat b))).rem.toNat = s.rem.toNat - 1 :=
    countByte_rem_toNat (by simp only [State.withBuf_rem]; omega)
  exact
    { canonical := h.wf_write _ (by omega)
      topUnwritten := h.topUnwritten_write _ (by omega)
      sizeBound := by omega
      remBound := by omega
      startStored := fun _ => by
        rw [countByte_buf, State.withBuf_buf, Memory.read_write_ne _ _ (by omega)]
        exact h.startStored (by simp [hst])
      lowStored := fun e => by simp [hst] at e
      payloadSize := fun _ => by omega
      payloadRem := fun _ => by omega
      payloadLength := fun _ => by
        rw [hsize', hrem', countByte_buf, State.withBuf_buf, storedLength_write _ b hsize]
        omega
      payloadStored := fun _ i hi => by
        rw [hsize'] at hi
        by_cases e : i = s.size.toNat
        · subst e; exact written_write_same _ _ _
        · exact written_write _ _ (h.payloadStored hst i (by omega)) }

/-- R78, R79: the last byte, at index 1021 at most. -/
theorem Inv.storeLast (b : Byte) (hst : s.st = .readPayload) :
    Inv ((countByte (s.withBuf (s.buf.write s.size.toNat b))).withSt .awaitStart) := by
  obtain ⟨-, hsize⟩ := h.payloadSize hst
  obtain ⟨hrem, hrem'⟩ := h.payloadRem hst
  refine inv_of_awaitStart rfl (h.wf_write _ (by omega)) (h.topUnwritten_write _ (by omega)) ?_ ?_
  · rw [State.withSt_size, countByte_size_toNat] <;> rw [State.withBuf_size] <;> omega
  · rw [State.withSt_rem, countByte_rem_toNat] <;> rw [State.withBuf_rem] <;> omega

/-- In ReadPayload the index of the next byte is inside the buffer. -/
theorem Inv.size_lt_bufCap (hst : s.st = .readPayload) : s.size.toNat < Config.bufCap := by
  obtain ⟨-, hsize⟩ := h.payloadSize hst
  simp only [Config.bufCap]
  omega

/-- Every row keeps the invariant where the byte decode can select it. -/
theorem applyRow_keeps_inv {b : Byte} {row : RxRow} {t : State} (hg : RowGuard b s row)
    (ht : applyRow row b s = .next t) : Inv t := by
  cases row with
  | start =>
    obtain ⟨-, rfl⟩ := hg
    rw [applyRow_start] at ht; cases ht
    exact h.storeStart.withOut _
  | drop =>
    rw [applyRow_drop] at ht; cases ht
    exact h.withOut _
  | lenLow =>
    rw [applyRow_lenLow] at ht; cases ht
    exact (h.storeLow b hg).withOut _
  | lenHigh =>
    obtain ⟨lo, hlo⟩ := Option.ne_none_iff_exists'.1 (h.lowStored hg)
    rw [applyRow_lenHigh b s hlo] at ht; cases ht
    exact h.storeHigh b hg hlo
  | append =>
    obtain ⟨hst, hr⟩ := hg
    rw [applyRow_append b (h.size_lt_bufCap hst)] at ht; cases ht
    exact (h.storeAppend b hst hr).withOut _
  | lastOk =>
    obtain ⟨hst, -⟩ := hg
    rw [applyRow_lastOk b (h.size_lt_bufCap hst)] at ht; cases ht
    exact (h.storeLast b hst).withOut _
  | lastBad =>
    obtain ⟨hst, -⟩ := hg
    rw [applyRow_lastBad b (h.size_lt_bufCap hst)] at ht; cases ht
    exact (h.storeLast b hst).withOut _

theorem feedByte_keeps_inv {b : Byte} {t : State} (ht : feedByte b s = .next t) : Inv t := by
  obtain ⟨row, hsel, happ⟩ := feedByte_eq_next.1 ht
  exact applyRow_keeps_inv h (selectRow_guard hsel) happ

end

theorem feedAll_keeps_inv {bs : List Byte} {s : State} {u : State × List Status} (h : Inv s)
    (hu : feedAll bs s = .next u) : Inv u.1 := by
  induction bs generalizing s u with
  | nil => cases hu; exact h
  | cons b bs ih =>
    obtain ⟨t, ht, hu⟩ := andThen_eq_next.1 hu
    obtain ⟨v, hv, hu⟩ := andThen_eq_next.1 hu
    cases hu
    exact ih (u := v) (feedByte_keeps_inv h ht) hv

theorem feedList_keeps_inv {bs : List Byte} {s t : State} (h : Inv s) (ht : feedList bs s = .next t) : Inv t := by
  obtain ⟨u, hu, ht⟩ := andThen_eq_next.1 ht
  cases ht
  exact (feedAll_keeps_inv h hu).withOut _

/-- Every instruction keeps the invariant. -/
theorem exec_keeps_inv {i : Instr} {s t : State} (h : Inv s) (ht : exec i s = .next t) : Inv t := by
  cases exec_effect ht with
  | result ht => obtain ⟨r, rfl⟩ := ht; exact h.withOut r
  | reset ht => subst ht; exact (inv_resetBlock s).withOut _
  | fed b ht => exact feedByte_keeps_inv h ht
  | feds bs ht => exact feedList_keeps_inv h ht
  | recv bs ht => exact feedList_keeps_inv (inv_resetBlock s) ht

/-- Settles O49: an idle step changes only the result, and any other step runs an instruction, each of which keeps the
invariant. -/
theorem stepKeepsInvariant : Obligations.StepKeepsInvariant := by
  intro s t h ht
  obtain rfl | ⟨i, p, ht⟩ := step_eq_next ht
  · exact h.withOut _
  · exact exec_keeps_inv (h.withPort p) ht

/-- Settles O48: the state after reset is a reset block. -/
theorem invariantHoldsAtReset : Obligations.InvariantHoldsAtReset :=
  inv_resetBlock State.reset

/-- Settles O1. -/
theorem resetLeavesInitialValues : Obligations.ResetLeavesInitialValues :=
  ⟨rfl, rfl, rfl, Memory.read_nil, rfl, rfl, rfl⟩

/-! ### No instruction reads the results or the host's input (R20, R25) -/

/-- `s` with the model's own fields, the result and the host's input, replaced (logs 1 and 3). -/
def State.withHost (s : State) (r : Result) (p : List Item) : State := (s.withOut r).withPort p

/-- `f` neither reads the result nor the host's input, replaces the former whatever it was, and keeps the latter. -/
def HostBlind (f : State → Answer State) : Prop :=
  ∀ s r p, f (s.withHost r p) = andThen (f s) fun t => .next (t.withPort p)

/-- What is blind to the host's input leaves it unchanged: replace the input by itself. -/
theorem HostBlind.port_eq {f : State → Answer State} (hf : HostBlind f) {s t : State} (h : f s = .next t) :
    t.port = s.port := by
  have hself : f s = andThen (f s) fun t => .next (t.withPort s.port) := hf s s.out s.port
  rw [h, andThen_next] at hself
  injection hself with e
  rw [e, State.withPort_port]

/-- A blind operation chosen by what a part of the block answers is blind. -/
theorem hostBlind_andThen {α : Type} {g : State → Answer α} {f : α → State → Answer State}
    (hg : ∀ s r p, g (s.withHost r p) = g s) (hf : ∀ a, HostBlind (f a)) :
    HostBlind fun s => andThen (g s) fun a => f a s := by
  intro s r p
  simp only [hg]
  cases g s with
  | next a => exact hf a s r p
  | fault => rfl
  | refused => rfl

theorem hostBlind_withOut (r : Result) : HostBlind fun s => .next (s.withOut r) := fun _ _ _ => rfl

theorem hostBlind_refused (x : Refusal) : HostBlind fun _ => .refused x := fun _ _ _ => rfl

theorem hostBlind_returnRead (addr n : Nat) (result : Nat → Result) : HostBlind (returnRead addr n result) := by
  intro s r p
  simp only [returnRead, State.withHost, State.withPort_buf, State.withOut_buf]
  cases s.buf.memRead addr n <;> rfl

theorem hostBlind_execGetStr : HostBlind execGetStr := by
  intro s r p
  simp only [execGetStr, State.withHost, State.withPort_buf, State.withOut_buf]
  cases scanString s.buf Config.strWin Config.dataOff <;> rfl

theorem hostBlind_execGetData (n : Nat) : HostBlind (execGetData n) := by
  intro s r p
  simp only [execGetData, State.withHost, State.withPort_buf, State.withOut_buf]
  split
  · rfl
  · cases s.buf.readRange Config.dataOff n <;> rfl

theorem hostBlind_execEncode (cmd : Byte) (w : Bool) (data : List Byte) : HostBlind (execEncode cmd w data) := by
  intro s r p
  unfold execEncode
  split <;> rfl

theorem storeByte_withHost (i : Nat) (b : Byte) (s : State) (r : Result) (p : List Item) :
    storeByte i b (s.withHost r p) = andThen (storeByte i b s) fun t => .next (t.withHost r p) := by
  unfold storeByte
  split <;> rfl

theorem storeFed_withHost (row : RxRow) (b : Byte) (s : State) (r : Result) (p : List Item) :
    storeFed row b (s.withHost r p) = andThen (storeFed row b s) fun t => .next (t.withHost r p) := by
  cases row with
  | drop => rfl
  | start | lenLow | lenHigh | append | lastOk | lastBad => exact storeByte_withHost _ b s r p

theorem hostBlind_lengthDecoded (len : Nat) : HostBlind fun s => .next (lengthDecoded len s) := by
  intro s r p
  simp only [lengthDecoded]
  split <;> rfl

theorem hostBlind_advanceLenHigh (b : Byte) : HostBlind (advanceLenHigh b) := by
  intro s r p
  simp only [advanceLenHigh, State.withHost, State.withPort_buf, State.withOut_buf]
  cases s.buf.read 1 with
  | none => rfl
  | some lo => exact hostBlind_lengthDecoded (lengthField lo b) s r p

theorem hostBlind_advance (row : RxRow) (b : Byte) : HostBlind (advance row b) := by
  cases row with
  | lenHigh => exact hostBlind_advanceLenHigh b
  | start | drop | lenLow | append | lastOk | lastBad => exact fun _ _ _ => rfl

theorem hostBlind_applyRow (row : RxRow) (b : Byte) : HostBlind (applyRow row b) := by
  intro s r p
  simp only [applyRow, storeFed_withHost]
  cases storeFed row b s with
  | next u => exact hostBlind_advance row b u r p
  | fault => rfl
  | refused => rfl

theorem selectLast_withHost (b : Byte) (s : State) (r : Result) (p : List Item) :
    selectLast b (s.withHost r p) = selectLast b s := by
  have hsize : (s.withHost r p).size = s.size := rfl
  simp only [selectLast, hsize, storeByte_withHost]
  cases storeByte s.size.toNat b s <;> rfl

/-- The byte decode reads the tag, the counters and the buffer only. -/
theorem selectRow_withHost (b : Byte) (s : State) (r : Result) (p : List Item) :
    selectRow b (s.withHost r p) = selectRow b s := by
  cases hst : s.st with
  | awaitStart => rw [selectRow_awaitStart b hst]; exact selectRow_awaitStart b hst
  | readLenLow => rw [selectRow_readLenLow b hst]; exact selectRow_readLenLow b hst
  | readLenHigh => rw [selectRow_readLenHigh b hst]; exact selectRow_readLenHigh b hst
  | readPayload =>
    have hpay : ∀ {u : State}, u.st = .readPayload → selectRow b u = selectPayload b u := by
      intro u hu; simp only [selectRow, hu]
    rw [hpay hst, hpay (u := s.withHost r p) hst]
    simp only [selectPayload, selectLast_withHost]
    rfl

theorem hostBlind_feedByte (b : Byte) : HostBlind (feedByte b) :=
  hostBlind_andThen (selectRow_withHost b) fun row => hostBlind_applyRow row b

theorem hostBlind_runRow (row : RxRow) (b : Byte) : HostBlind (runRow row b) :=
  hostBlind_andThen (selectRow_withHost b) fun selected => by
    split
    · exact hostBlind_applyRow row b
    · exact hostBlind_refused _

/-- A run of FEEDs hands the host's input on from byte to byte. -/
theorem feedAll_withPort (bs : List Byte) (s : State) (p : List Item) :
    feedAll bs (s.withPort p) = andThen (feedAll bs s) fun u => .next (u.1.withPort p, u.2) := by
  induction bs generalizing s with
  | nil => rfl
  | cons b bs ih =>
    have hb : feedByte b (s.withPort p) = andThen (feedByte b s) fun t => .next (t.withPort p) :=
      hostBlind_feedByte b s s.out p
    simp only [feedAll, hb]
    cases feedByte b s with
    | next t =>
      simp only [andThen_next, ih]
      cases feedAll bs t <;> rfl
    | fault => rfl
    | refused => rfl

theorem hostBlind_feedList (bs : List Byte) : HostBlind (feedList bs) := by
  intro s r p
  cases bs with
  | nil => rfl
  | cons b bs =>
    simp only [feedList, feedAll, hostBlind_feedByte b s r p]
    cases feedByte b s with
    | next t =>
      simp only [andThen_next, feedAll_withPort]
      cases feedAll bs t <;> rfl
    | fault => rfl
    | refused => rfl

theorem hostBlind_exec : ∀ i, HostBlind (exec i)
  | .reset => fun _ _ _ => rfl
  | .crc16 bs => hostBlind_withOut (.crc (crc16 bs))
  | .encode cmd w data => hostBlind_execEncode cmd w data
  | .getCmd | .getU8 | .getI8 | .getU16 | .getI16 | .getU32 | .getI32 => hostBlind_returnRead _ _ _
  | .getStr => hostBlind_execGetStr
  | .getData n => hostBlind_execGetData n
  | .reservedD | .reservedE | .reservedF | .reservedHigh _ => hostBlind_refused _
  | .feed b => hostBlind_feedByte b
  | .rxStart | .rxDrop _ | .rxLenLow _ | .rxLenHigh _ | .rxAppend _ | .rxLastOk _ | .rxLastBad _ => hostBlind_runRow _ _
  | .feeds bs => hostBlind_feedList bs
  | .recv bs => fun s => hostBlind_feedList bs (resetBlock s)
  | .frame _ _ _ _ => hostBlind_feedList _

/-- Settles O47: every instruction is blind to the host's two fields. -/
theorem resultsAreNeverReadBack : Obligations.ResultsAreNeverReadBack := by
  intro i s r p
  have hi := hostBlind_exec i
  refine ⟨(hi s r p).trans ?_, fun t => hi.port_eq⟩
  cases exec i s <;> rfl

end Sys2Proof.Machine

/-! PROOFS of the family 20_memory.md: what one FEED and a run of FEEDs leave unchanged (R31, R34), and that reads of
different widths at one offset nest (R32). -/

namespace Sys2Proof.Machine

/-! ### What a store leaves unchanged (R31) -/

/-- All that a row's store can do: nothing for a dropped byte, else one byte written at the row's index. -/
theorem storeFed_eq_next {row : RxRow} {b : Byte} {s u : State} (h : storeFed row b s = .next u) :
    (storeIndex row s = none ∧ u = s) ∨ ∃ i, storeIndex row s = some i ∧ u = s.withBuf (s.buf.write i b) := by
  unfold storeFed at h
  split at h
  next hi => cases h; exact .inl ⟨hi, rfl⟩
  next i hi => exact .inr ⟨i, hi, (storeByte_eq_next.1 h).2⟩

theorem storeFed_read_other {row : RxRow} {b : Byte} {s u : State} {a : Nat} (h : storeFed row b s = .next u)
    (ha : storeIndex row s ≠ some a) : u.buf.read a = s.buf.read a := by
  obtain ⟨-, rfl⟩ | ⟨i, hi, rfl⟩ := storeFed_eq_next h
  · rfl
  · have hne : a ≠ i := by rintro rfl; exact ha hi
    exact Memory.read_write_ne _ b hne

theorem storeFed_read_stored {row : RxRow} {b : Byte} {s u : State} {a : Nat} (h : storeFed row b s = .next u)
    (ha : storeIndex row s = some a) : u.buf.read a = some b := by
  obtain ⟨hnone, -⟩ | ⟨i, hi, rfl⟩ := storeFed_eq_next h
  · simp [hnone] at ha
  · obtain rfl : i = a := Option.some.inj (hi.symm.trans ha)
    exact Memory.read_write_same ..

/-- After the store, a row writes registers and outputs only. -/
theorem advance_buf {row : RxRow} {b : Byte} {s t : State} (h : advance row b s = .next t) : t.buf = s.buf := by
  cases row with
  | lenHigh =>
    simp only [advance, advanceLenHigh] at h
    split at h
    · cases h
    · cases h; exact lengthDecoded_buf _ _
  | start | drop | lenLow | append | lastOk | lastBad => cases h; rfl

/-! ### What one FEED leaves unchanged -/

theorem applyRow_read_other {row : RxRow} {b : Byte} {s t : State} {a : Nat} (h : applyRow row b s = .next t)
    (ha : storeIndex row s ≠ some a) : t.buf.read a = s.buf.read a := by
  obtain ⟨u, hu, ht⟩ := andThen_eq_next.1 h
  rw [advance_buf ht, storeFed_read_other hu ha]

theorem applyRow_read_stored {row : RxRow} {b : Byte} {s t : State} {a : Nat} (h : applyRow row b s = .next t)
    (ha : storeIndex row s = some a) : t.buf.read a = some b := by
  obtain ⟨u, hu, ht⟩ := andThen_eq_next.1 h
  rw [advance_buf ht, storeFed_read_stored hu ha]

/-- The rows that can be selected in AwaitStart and ReadLenLow write neither counter (decision D7). -/
theorem applyRow_counts {row : RxRow} {b : Byte} {s t : State} (hg : RowGuard b s row)
    (h : applyRow row b s = .next t) (hst : s.st = .awaitStart ∨ s.st = .readLenLow) :
    t.size = s.size ∧ t.rem = s.rem := by
  cases row with
  | start => rw [applyRow_start] at h; cases h; exact ⟨rfl, rfl⟩
  | drop => rw [applyRow_drop] at h; cases h; exact ⟨rfl, rfl⟩
  | lenLow => rw [applyRow_lenLow] at h; cases h; exact ⟨rfl, rfl⟩
  | lenHigh =>
    have hhigh : s.st = .readLenHigh := hg
    simp [hhigh] at hst
  | append | lastOk | lastBad =>
    obtain ⟨hpay, -⟩ := hg
    simp [hpay] at hst

/-- A row's own instruction runs that row on its byte; RX.START has the start marker for its byte. -/
theorem exec_rowInstr {row : RxRow} {b : Byte} (hb : row = .start → b = Config.start) (s : State) :
    exec (row.instr b) s = runRow row b s := by
  cases row with
  | start => rw [hb rfl]; rfl
  | drop | lenLow | lenHigh | append | lastOk | lastBad => rfl

/-- Settles O12: FEED and a row's instruction both come down to the effect of the one row selected. -/
theorem feedFrame : Obligations.FeedFrame := by
  intro s t b i hi ht
  have hfeed : feedByte b s = .next t := by
    obtain rfl | ⟨row, hb, rfl⟩ := hi
    · exact ht
    · exact feedByte_of_runRow ((exec_rowInstr hb s).symm.trans ht)
  obtain ⟨row, hsel, happ⟩ := feedByte_eq_next.1 hfeed
  exact ⟨row, hsel, (hostBlind_exec i).port_eq ht, fun _ => applyRow_read_other happ,
    fun _ => applyRow_read_stored happ, applyRow_counts (selectRow_guard hsel) happ⟩

/-! ### What a run of FEEDs leaves unchanged -/

/-- The first byte's index, then those of the rest. -/
theorem storedIndices_cons_of_next {b : Byte} {bs : List Byte} {s t : State} {row : RxRow}
    (hsel : selectRow b s = .next row) (ht : feedByte b s = .next t) :
    storedIndices (b :: bs) s = (storeIndex row s).toList ++ storedIndices bs t := by
  simp only [storedIndices, hsel, ht]

theorem feedAll_read_unstored {bs : List Byte} {s : State} {u : State × List Status} {a : Nat}
    (h : feedAll bs s = .next u) (ha : a ∉ storedIndices bs s) : u.1.buf.read a = s.buf.read a := by
  induction bs generalizing s u with
  | nil => cases h; rfl
  | cons b bs ih =>
    obtain ⟨t, ht, h⟩ := andThen_eq_next.1 h
    obtain ⟨v, hv, h⟩ := andThen_eq_next.1 h
    cases h
    obtain ⟨row, hsel, happ⟩ := feedByte_eq_next.1 ht
    rw [storedIndices_cons_of_next hsel ht, List.mem_append, Option.mem_toList, not_or] at ha
    obtain ⟨hfirst, hrest⟩ := ha
    calc v.1.buf.read a = t.buf.read a := ih hv hrest
      _ = s.buf.read a := applyRow_read_other happ hfirst

theorem feedList_read_unstored {bs : List Byte} {s t : State} {a : Nat} (h : feedList bs s = .next t)
    (ha : a ∉ storedIndices bs s) : t.buf.read a = s.buf.read a := by
  obtain ⟨u, hu, h⟩ := andThen_eq_next.1 h
  cases h
  exact feedAll_read_unstored hu ha

/-- Settles O13: FEEDS and FRAME feed their bytes from `s`, RECV from the reset block, whose buffer is unwritten. -/
theorem feedListFrame : Obligations.FeedListFrame := by
  intro s t bs
  refine ⟨fun i hi ht => ?_, fun ht => ?_⟩
  · have hfeed : feedList bs s = .next t := by
      obtain rfl | ⟨w, reserved, counted, checksum, rfl, rfl⟩ := hi
      · exact ht
      · exact ht
    exact ⟨(hostBlind_exec _).port_eq ht, fun _ => feedList_read_unstored hfeed⟩
  · have hfeed : feedList bs (resetBlock s) = .next t := ht
    exact ⟨(hostBlind_exec _).port_eq ht, fun _ => feedList_read_unstored hfeed⟩

/-! ### Reads of different widths at one offset (R30, R32) -/

/-- The first `n` bytes of a little-endian number are its low `n` bytes. -/
theorem leNat_take (l : List Byte) (n : Nat) : leNat (l.take n) = leNat l % 256 ^ n := by
  induction l generalizing n with
  | nil => simp [leNat]
  | cons b l ih =>
    cases n with
    | zero => simp [leNat, Nat.mod_one]
    | succ n =>
      have hb : b.toNat < 256 := b.isLt
      simp only [List.take_succ_cons, leNat, ih, pow_succ', Nat.mod_mul]
      congr 1
      · omega
      · congr 2; omega

/-- A shorter run of bytes at the same index is the front of the longer one. -/
theorem Memory.readRange_take {m : Memory} {a n k : Nat} {l : List Byte} (hn : n ≤ k) (h : m.readRange a k = some l) :
    m.readRange a n = some (l.take n) := by
  rw [Memory.readRange_eq_some] at h ⊢
  obtain ⟨hl, hread⟩ := h
  refine ⟨by simp [hl, hn], fun j hj => ?_⟩
  rw [hread j (by omega), List.getElem?_take_of_lt hj]

/-- Where a wide read has the value `v`, a narrower one at the same index has the low bytes of `v`. -/
theorem Memory.memRead_narrower {m : Memory} {a n k v : Nat} (hn : n ≤ k) (h : m.memRead a k = some v) :
    m.memRead a n = some (v % 256 ^ n) := by
  obtain ⟨l, hl, rfl⟩ := Option.map_eq_some_iff.1 h
  rw [Memory.memRead, Memory.readRange_take hn hl, Option.map_some, leNat_take]

theorem returnRead_of_memRead {addr n v : Nat} {s : State} (result : Nat → Result)
    (h : s.buf.memRead addr n = some v) : returnRead addr n result s = .next (s.withOut (result v)) := by
  simp only [returnRead, h]

/-- Where a wide read is answered, so is every narrower one at the same index, from the low bytes of the same value. -/
theorem returnRead_narrower {addr k : Nat} {result : Nat → Result} {s t : State}
    (h : returnRead addr k result s = .next t) :
    ∃ v, t.out = result v ∧ ∀ n, n ≤ k → ∀ result' : Nat → Result,
      returnRead addr n result' s = .next (s.withOut (result' (v % 256 ^ n))) := by
  cases hv : s.buf.memRead addr k with
  | none => simp [returnRead, hv] at h
  | some v =>
    rw [returnRead_of_memRead result hv] at h
    cases h
    exact ⟨v, rfl, fun n hn result' => returnRead_of_memRead result' (Memory.memRead_narrower hn hv)⟩

/-- The low `k` bits of a number, as a word: take them before or after a wider word is made of it. -/
theorem ofNat_mod_eq_setWidth {k w : Nat} (v : Nat) (h : k ≤ w) :
    BitVec.ofNat k (v % 2 ^ k) = (BitVec.ofNat w v).setWidth k := by
  rw [BitVec.setWidth_ofNat_of_le h]
  exact BitVec.eq_of_toNat_eq (by simp)

/-- Settles O33: the three accessors read 4, 2 and 1 bytes at the same offset. -/
theorem accessorWidthsNest : Obligations.AccessorWidthsNest := by
  refine fun s t => ⟨fun v ht hout => ?_, fun v ht hout => ?_⟩
  · obtain ⟨n, hn, hread⟩ := returnRead_narrower (k := 4) ht
    obtain rfl : BitVec.ofNat 32 n = v := Result.u32.inj (hn.symm.trans hout)
    rw [← ofNat_mod_eq_setWidth n (by decide), ← ofNat_mod_eq_setWidth n (by decide)]
    exact ⟨hread 2 (by decide) _, hread 1 (by decide) _⟩
  · obtain ⟨n, hn, hread⟩ := returnRead_narrower (k := 2) ht
    obtain rfl : BitVec.ofNat 16 n = v := Result.u16.inj (hn.symm.trans hout)
    rw [← ofNat_mod_eq_setWidth n (by decide)]
    exact hread 1 (by decide) _

end Sys2Proof.Machine

/-! PROOFS of the family 30_encoding.md: the decoders and the encoder are inverse to each other (R40 to R54), the byte
decode selects one row (R57), the pseudo-operations and a frame on the wire are runs of FEEDs (R44, R45, R56), and a
step runs what the host presents (R53). -/

namespace Sys2Proof

/-! ### The operation stream, from bytes to operation (R53, R54) -/

/-- A code byte whose high four bits are not all 0 (R54). -/
theorem decodeOp_high {c : Byte} (bs : List Byte) (h : 16 ≤ c.toNat) :
    decodeOp (c :: bs) = .ok (.reservedHigh c, bs) := by
  obtain ⟨n, hn⟩ := Nat.exists_eq_add_of_le' h
  simp only [decodeOp, hn]

theorem decodeCrc_counted {l : List Byte} (rest : List Byte) (h : l.length ≤ maxCount) :
    decodeCrc (countBytes l.length ++ l ++ rest) = .ok (.crc16 l, rest) := by
  simp only [decodeCrc, decodeCounted_append rest h]

theorem decodeEncode_counted (cmd : Byte) (w : Bool) {data : List Byte} (rest : List Byte)
    (h : data.length ≤ maxCount) :
    decodeEncode (cmd :: (if w then 1 else 0) :: (countBytes data.length ++ data ++ rest)) =
      .ok (.encode cmd w data, rest) := by
  cases w <;> simp [decodeEncode, -List.append_assoc, decodeCounted_append rest h]

theorem decodeGetData_count {n : Nat} (rest : List Byte) (h : n ≤ maxCount) :
    decodeGetData (countBytes n ++ rest) = .ok (.getData n, rest) := by
  obtain ⟨hhalf, hn⟩ := half_countBytes h
  show Except.ok (Instr.getData (half _ _).toNat, rest) = _
  rw [hhalf, hn]

/-- Settles O50, operation by operation: what is counted decodes to itself, and a code byte alone to its operation. -/
theorem decodeEncodeOperation : Obligations.DecodeEncodeOperation := by
  intro i rest hf hwf
  cases i with
  | reset | getCmd | getU8 | getI8 | getU16 | getI16 | getU32 | getI32 | getStr | reservedD | reservedE | reservedF
  | feed => rfl
  | crc16 l => exact decodeCrc_counted rest (of_decide_eq_true hwf)
  | encode cmd w data => exact decodeEncode_counted cmd w rest (of_decide_eq_true hwf)
  | getData n => exact decodeGetData_count rest (of_decide_eq_true hwf)
  | reservedHigh code => exact decodeOp_high rest (of_decide_eq_true hwf)
  | feeds | recv | rxStart | rxDrop | rxLenLow | rxLenHigh | rxAppend | rxLastOk | rxLastBad | frame => cases hf

/-! ### The operation stream, from operation to bytes -/

theorem decodeFeed_eq_ok {bs rest : List Byte} {i : Instr} (h : decodeFeed bs = .ok (i, rest)) :
    ∃ b, i = .feed b ∧ bs = b :: rest := by
  cases bs with
  | nil => cases h
  | cons b bs => cases h; exact ⟨b, rfl, rfl⟩

theorem decodeCrc_eq_ok {bs rest : List Byte} {i : Instr} (h : decodeCrc bs = .ok (i, rest)) :
    ∃ l, i = .crc16 l ∧ l.length ≤ maxCount ∧ bs = countBytes l.length ++ l ++ rest := by
  unfold decodeCrc at h
  split at h
  next l _ hc =>
    cases h
    obtain ⟨hl, hbs⟩ := decodeCounted_eq_ok hc
    exact ⟨l, rfl, hl, hbs.symm⟩
  · cases h

theorem decodeEncode_eq_ok {bs rest : List Byte} {i : Instr} (h : decodeEncode bs = .ok (i, rest)) :
    ∃ cmd w data, i = .encode cmd w data ∧ data.length ≤ maxCount ∧
      bs = cmd :: (if w then 1 else 0) :: (countBytes data.length ++ data ++ rest) := by
  unfold decodeEncode at h
  split at h
  next cmd ww bs =>
    split at h
    next hww =>
      split at h
      next data _ hc =>
        cases h
        obtain ⟨hl, rfl⟩ := decodeCounted_eq_ok hc
        refine ⟨cmd, _, data, rfl, hl, ?_⟩
        obtain rfl | rfl := hww <;> rfl
      · cases h
    · cases h
  · cases h

theorem decodeGetData_eq_ok {bs rest : List Byte} {i : Instr} (h : decodeGetData bs = .ok (i, rest)) :
    ∃ n, i = .getData n ∧ n ≤ maxCount ∧ bs = countBytes n ++ rest := by
  unfold decodeGetData at h
  split at h
  next lo hi bs =>
    cases h
    have hlt := (half lo hi).isLt
    exact ⟨_, rfl, by simp only [maxCount]; omega, by rw [countBytes_half]; rfl⟩
  · cases h

/-- Settles O51, by the code byte: what its operand's decoder has read is what the operand is written as. -/
theorem decodedOperationReencodes : Obligations.DecodedOperationReencodes := by
  intro bs rest i h
  cases bs with
  | nil => cases h
  | cons c bs =>
    by_cases hhigh : 16 ≤ c.toNat
    · rw [decodeOp_high bs hhigh] at h
      cases h
      exact ⟨rfl, decide_eq_true hhigh, rfl⟩
    · obtain ⟨n, hn⟩ : ∃ n, n = c.toNat := ⟨_, rfl⟩
      obtain rfl : c = BitVec.ofNat 8 n := by simp [hn]
      have hlt : n < 16 := by omega
      match n, hlt, h with
      | 1, _, h => obtain ⟨b, rfl, rfl⟩ := decodeFeed_eq_ok h; exact ⟨rfl, rfl, rfl⟩
      | 2, _, h => obtain ⟨l, rfl, hl, rfl⟩ := decodeCrc_eq_ok h; exact ⟨rfl, decide_eq_true hl, rfl⟩
      | 3, _, h => obtain ⟨cmd, w, data, rfl, hl, rfl⟩ := decodeEncode_eq_ok h; exact ⟨rfl, decide_eq_true hl, rfl⟩
      | 12, _, h => obtain ⟨n, rfl, hn, rfl⟩ := decodeGetData_eq_ok h; exact ⟨rfl, decide_eq_true hn, rfl⟩
      | 0, _, h | 4, _, h | 5, _, h | 6, _, h | 7, _, h | 8, _, h | 9, _, h | 10, _, h | 11, _, h | 13, _, h | 14, _, h
      | 15, _, h => cases h; exact ⟨rfl, rfl, rfl⟩
      | _ + 16, hlt, _ => omega

/-! ### The flags field and its parts (R41, R43) -/

theorem writeFlag_eq (lo : Byte) : writeFlag lo = decide (lo.toNat % 2 = 1) := by
  simp [writeFlag, BitVec.getLsbD]

theorem reservedBits_toNat (lo : Byte) : (reservedBits lo).toNat = lo.toNat / 2 % 32 := by
  simp [reservedBits, Nat.shiftRight_eq_div_pow]

section
variable {len : Nat} (h : len ≤ Config.lenMax) (reserved : BitVec 5) (w : Bool)
include h

theorem lengthField_flagsWord :
    lengthField (lowByte (flagsWord len reserved w)) (highByte (flagsWord len reserved w)) = len := by
  have := reserved.isLt
  rw [lengthField_eq, lowByte_toNat, highByte_toNat, flagsWord_toNat h]
  cases w <;> simp <;> omega

theorem reservedBits_flagsWord : reservedBits (lowByte (flagsWord len reserved w)) = reserved := by
  have := reserved.isLt
  apply BitVec.eq_of_toNat_eq
  rw [reservedBits_toNat, lowByte_toNat, flagsWord_toNat h]
  cases w <;> simp <;> omega

theorem writeFlag_flagsWord : writeFlag (lowByte (flagsWord len reserved w)) = w := by
  rw [writeFlag_eq, lowByte_toNat, flagsWord_toNat h]
  cases w <;> simp <;> omega

end

/-- The flags put together again from the parts of two flag bytes are those two bytes. -/
theorem flagsWord_parts (lo hi : Byte) :
    flagsWord (lengthField lo hi) (reservedBits lo) (writeFlag lo) = half lo hi := by
  have hlo := lo.isLt
  have hlen : lengthField lo hi ≤ Config.lenMax := Nat.le_of_lt_succ (lengthField_lt lo hi)
  apply BitVec.eq_of_toNat_eq
  rw [flagsWord_toNat hlen, half_toNat, lengthField_eq, reservedBits_toNat, writeFlag_eq]
  split <;> simp_all <;> omega

@[simp] theorem halfBytes_half (lo hi : Byte) : halfBytes (half lo hi) = [lo, hi] := by
  simp [halfBytes]

/-! ### Frames (R40, R44, R45) -/

@[simp] theorem frameBytes_length (w : Bool) (reserved : BitVec 5) (counted : List Byte) (checksum : Half) :
    (frameBytes w reserved counted checksum).length = 5 + counted.length := by
  simp [frameBytes, halfBytes]; omega

theorem decodeFrame_frameBytes (w : Bool) (reserved : BitVec 5) {counted : List Byte} (checksum : Half)
    (rest : List Byte) (h : counted.length ≤ Config.lenMax) :
    decodeFrame (frameBytes w reserved counted checksum ++ rest) = .ok (.frame w reserved counted checksum, rest) := by
  have hbody : frameBytes w reserved counted checksum ++ rest =
      Config.start :: lowByte (flagsWord counted.length reserved w) :: highByte (flagsWord counted.length reserved w) ::
        (counted ++ (lowByte checksum :: highByte checksum :: rest)) := by
    simp [frameBytes, halfBytes]
  simp only [hbody, decodeFrame, if_true, decodeBody, lengthField_flagsWord h, splitBytes_append,
    writeFlag_flagsWord h, reservedBits_flagsWord h, half_lowByte_highByte]

theorem decodeBody_eq_ok {lo hi : Byte} {bs rest : List Byte} {i : Instr} (h : decodeBody lo hi bs = .ok (i, rest)) :
    ∃ counted checksum, i = .frame (writeFlag lo) (reservedBits lo) counted checksum ∧
      counted.length = lengthField lo hi ∧ bs = counted ++ halfBytes checksum ++ rest := by
  unfold decodeBody at h
  split at h
  next counted ck0 ck1 _ hs =>
    cases h
    obtain ⟨hl, rfl⟩ := splitBytes_eq_ok hs
    exact ⟨counted, half ck0 ck1, rfl, hl, by simp⟩
  · cases h
  · cases h

theorem decodeFrame_eq_ok {bs rest : List Byte} {i : Instr} (h : decodeFrame bs = .ok (i, rest)) :
    ∃ lo hi body, bs = Config.start :: lo :: hi :: body ∧ decodeBody lo hi body = .ok (i, rest) := by
  unfold decodeFrame at h
  split at h
  · cases h
  · split at h
    next hs =>
      split at h
      next lo hi body => subst hs; exact ⟨lo, hi, body, rfl, h⟩
      · cases h
    · cases h

/-- Settles O52: a frame's flags give back their parts, and the parts of any two flag bytes give back the flags. -/
theorem frameDecodeEncode : Obligations.FrameDecodeEncode := by
  refine ⟨fun w reserved _ checksum rest => decodeFrame_frameBytes w reserved checksum rest, fun bs rest i h => ?_⟩
  obtain ⟨lo, hi, body, rfl, h⟩ := decodeFrame_eq_ok h
  obtain ⟨counted, checksum, rfl, hl, rfl⟩ := decodeBody_eq_ok h
  have hlt := lengthField_lt lo hi
  refine ⟨rfl, decide_eq_true (by simp only [Config.lenMax]; omega), ?_⟩
  simp [encodeBytes, frameBytes, hl, flagsWord_parts]

/-- Settles O53. -/
theorem decodeSpecWords : Obligations.DecodeSpecWords :=
  ⟨rfl, rfl, rfl, rfl, rfl, rfl, rfl⟩

end Sys2Proof

namespace Sys2Proof.Machine

/-! ### Well-formed frames (R50) -/

/-- ENCODE's flags are those of a frame whose reserved bits are 0 (R42). -/
theorem requestFlags_eq (w : Bool) (data : List Byte) : requestFlags w data = flagsWord (data.length + 1) 0 w := by
  simp [requestFlags, flagsWord]

/-- The last two bytes of a run of bytes, and those before them. -/
theorem exists_append_two {body : List Byte} {n : Nat} (h : body.length = n + 2) :
    ∃ (l : List Byte) (c0 c1 : Byte), body = l ++ [c0, c1] ∧ l.length = n := by
  obtain ⟨c0, c1, hc⟩ := List.length_eq_two.1 (show (body.drop n).length = 2 by rw [List.length_drop]; omega)
  exact ⟨body.take n, c0, c1, by rw [← hc, List.take_append_drop], by rw [List.length_take]; omega⟩

/-- What a valid frame is: its header, `L` counted bytes, and their checksum (R50). -/
theorem validFrame_eq_append {f : List Byte} (h : validFrame f = true) :
    ∃ lo hi counted,
      f = Config.start :: lo :: hi :: counted ++ halfBytes (crc16 (Config.start :: lo :: hi :: counted)) ∧
      counted.length = lengthField lo hi ∧ lengthField lo hi ≤ 1017 := by
  simp only [validFrame, Bool.and_eq_true, decide_eq_true_eq] at h
  obtain ⟨⟨⟨⟨h5, h0⟩, hlen⟩, hL⟩, hcrc⟩ := h
  match f, h5 with
  | s :: lo :: hi :: body, _ =>
    simp only [List.getD_cons_zero, List.getD_cons_succ] at h0 hlen hL
    subst h0
    simp only [List.length_cons] at hlen
    obtain ⟨counted, c0, c1, rfl, hl⟩ := exists_append_two (show body.length = lengthField lo hi + 2 by omega)
    have hcrc' : crc16 (Config.start :: lo :: hi :: counted) = half c0 c1 := (checksumMatches_append _ _ _).1 hcrc
    exact ⟨lo, hi, counted, by rw [hcrc', halfBytes_half]; rfl, hl, hL⟩

/-- Settles O24: the first counted byte is the command id, and the flags are those of the parts that ENCODE is given. -/
theorem wellFormedFrameIsEncoded : Obligations.WellFormedFrameIsEncoded := by
  intro f h
  simp only [wellFormedFrame, Bool.and_eq_true, decide_eq_true_eq] at h
  obtain ⟨⟨hvalid, h1⟩, hres⟩ := h
  obtain ⟨lo, hi, counted, rfl, hlen, -⟩ := validFrame_eq_append hvalid
  simp only [List.cons_append, List.getD_cons_zero, List.getD_cons_succ] at h1 hres
  match counted, hlen with
  | [], hlen => simp only [List.length_nil] at hlen; omega
  | cmd :: data, hlen =>
    have hflags : requestFlags (writeFlag lo) data = half lo hi := by
      rw [requestFlags_eq, ← hres, ← flagsWord_parts, ← hlen, List.length_cons]
    simp [encodeFrame, frameHead, hflags, halfBytes]

/-! ### The byte decode (R57) -/

theorem runRow_of_ne {b : Byte} {s : State} {row row' : RxRow} (h : selectRow b s = .next row) (hne : row' ≠ row) :
    runRow row' b s = .refused (.rowNotSelected row') := by
  simp only [runRow, h, andThen_next, if_neg hne.symm]

/-- Settles O11: the row by the state tag, the byte and `rem`, then each row's own instruction. -/
theorem byteDecodeSelectsOneRow : Obligations.ByteDecodeSelectsOneRow := by
  refine fun s b => ⟨selectRow_awaitStart b, selectRow_readLenLow b, selectRow_readLenHigh b, selectRow_append b,
    fun hst hr row hsel => ?_, fun row hsel => ?_, fun row row' hsel hne hb => ?_⟩
  · have hlast : selectRow b s = selectLast b s := by simp only [selectRow, hst, selectPayload, hr]; rfl
    exact selectLast_eq_next (hlast.symm.trans hsel)
  · have hb : row = .start → b = Config.start := by
      rintro rfl
      obtain ⟨-, hb⟩ := selectRow_guard hsel
      exact hb
    rw [exec_rowInstr hb]
    exact runRow_of_selectRow hsel
  · rw [exec_rowInstr hb]
    exact runRow_of_ne hsel hne

/-- Settles O34. -/
theorem reservedCodesAreRefused : Obligations.ReservedCodesAreRefused :=
  fun _ _ => ⟨rfl, rfl, rfl, rfl⟩

/-! ### FEED completes where the invariant holds (R72) -/

/-- Under the invariant the whole frame can be read once its last byte is stored. -/
theorem Inv.exists_selectRow_last {s : State} (h : Inv s) (b : Byte) (hst : s.st = .readPayload) (hr : s.rem = 1) :
    ∃ row, selectRow b s = .next row := by
  obtain ⟨h3, -⟩ := h.payloadSize hst
  obtain ⟨f, hf⟩ := (Memory.readRange_isSome (m := s.buf) (a := 0) (n := s.size.toNat)).2 fun k hk => by
    rw [Nat.zero_add]
    exact h.payloadStored hst k hk
  have hlen : (f ++ [b]).length = s.size.toNat + 1 := (Memory.readRange_eq_some.1 (readRange_lastStored hf)).1
  exact ⟨_, selectRow_last b hst hr (h.size_lt_bufCap hst) (readRange_lastStored hf)
    (by simp only [Config.crcBytes]; omega)⟩

theorem Inv.exists_selectRow {s : State} (h : Inv s) (b : Byte) : ∃ row, selectRow b s = .next row := by
  cases hst : s.st with
  | awaitStart => exact ⟨_, selectRow_awaitStart b hst⟩
  | readLenLow => exact ⟨_, selectRow_readLenLow b hst⟩
  | readLenHigh => exact ⟨_, selectRow_readLenHigh b hst⟩
  | readPayload =>
    obtain ⟨h1, -⟩ := h.payloadRem hst
    by_cases hr : s.rem = 1
    · exact h.exists_selectRow_last b hst hr
    · exact ⟨_, selectRow_append b hst (by bv_omega)⟩

theorem Inv.exists_applyRow {s : State} (h : Inv s) {b : Byte} {row : RxRow} (hg : RowGuard b s row) :
    ∃ t, applyRow row b s = .next t := by
  cases row with
  | start => exact ⟨_, applyRow_start b s⟩
  | drop => exact ⟨_, applyRow_drop b s⟩
  | lenLow => exact ⟨_, applyRow_lenLow b s⟩
  | lenHigh =>
    obtain ⟨lo, hlo⟩ := Option.ne_none_iff_exists'.1 (h.lowStored hg)
    exact ⟨_, applyRow_lenHigh b s hlo⟩
  | append => exact ⟨_, applyRow_append b (h.size_lt_bufCap hg.1)⟩
  | lastOk => exact ⟨_, applyRow_lastOk b (h.size_lt_bufCap hg.1)⟩
  | lastBad => exact ⟨_, applyRow_lastBad b (h.size_lt_bufCap hg.1)⟩

theorem Inv.exists_feedByte {s : State} (h : Inv s) (b : Byte) : ∃ t, feedByte b s = .next t := by
  obtain ⟨row, hsel⟩ := h.exists_selectRow b
  obtain ⟨t, ht⟩ := h.exists_applyRow (selectRow_guard hsel)
  exact ⟨t, feedByte_eq_next.2 ⟨row, hsel, ht⟩⟩

/-! ### Runs of FEEDs (R56) -/

theorem Inv.exists_feedAll {s : State} (h : Inv s) (bs : List Byte) :
    ∃ t l, feedAll bs s = .next (t, l) ∧ l.length = bs.length := by
  induction bs generalizing s with
  | nil => exact ⟨s, [], rfl, rfl⟩
  | cons b bs ih =>
    obtain ⟨t, ht⟩ := h.exists_feedByte b
    obtain ⟨u, l, hu, hl⟩ := ih (feedByte_keeps_inv h ht)
    exact ⟨u, t.out.status :: l, by rw [feedAll_cons_of_next ht, hu]; rfl, by simp [hl]⟩

theorem feedList_of_feedAll {bs : List Byte} {s t : State} {l : List Status} (h : feedAll bs s = .next (t, l)) :
    feedList bs s = .next (t.withOut (.feds l)) := by
  rw [feedList, h]; rfl

theorem Inv.exists_feedList {s : State} (h : Inv s) (bs : List Byte) :
    ∃ t l, feedList bs s = .next t ∧ t.out = .feds l ∧ l.length = bs.length ∧ Inv t := by
  obtain ⟨t, l, ht, hl⟩ := h.exists_feedAll bs
  exact ⟨_, l, feedList_of_feedAll ht, rfl, hl, (feedAll_keeps_inv h ht).withOut _⟩

/-- Settles O35: the three are one run of FEEDs, RECV's from a reset block, where the invariant holds. -/
theorem feedListsComplete : Obligations.FeedListsComplete := by
  refine fun s bs => ⟨fun h => h.exists_feedList bs, (inv_resetBlock s).exists_feedList bs,
    fun w reserved checksum h => ?_⟩
  rw [← frameBytes_length w reserved bs checksum]
  exact h.exists_feedList _

/-- A blind operation does the same whatever result stood there before. -/
theorem HostBlind.withOut_eq {f : State → Answer State} (hf : HostBlind f) (s : State) (r : Result) :
    f (s.withOut r) = f s :=
  (hf s r s.port).trans (hf s s.out s.port).symm

/-- Settles O36: a run of FEEDs does not read the result that RESET leaves. -/
theorem recvIsResetThenFeeds : Obligations.RecvIsResetThenFeeds :=
  fun s bs => ((hostBlind_feedList bs).withOut_eq (resetBlock s) .nothing).symm

/-! ### One step (R53; log 1) -/

theorem step_ops {s : State} {bs left : List Byte} {rest : List Item} {i : Instr} (hp : s.port = .ops bs :: rest)
    (h : decodeOp bs = .ok (i, left)) : step s = exec i (s.withPort (leftOps left rest)) := by
  simp only [step, fetch, hp, fetched, h]

theorem step_rx {s : State} {b : Byte} {row : RxRow} {rest : List Item} (hp : s.port = .rx b :: rest)
    (h : selectRow b s = .next row) : step s = exec (row.instr b) (s.withPort rest) := by
  simp only [step, fetch, hp, h, andThen_next]

theorem step_wire {s : State} {bs left : List Byte} {rest : List Item} {i : Instr} (hp : s.port = .wire bs :: rest)
    (h : decodeFrame bs = .ok (i, left)) : step s = exec i (s.withPort (leftWire left rest)) := by
  simp only [step, fetch, hp, fetched, h]

theorem step_idle {s : State} (hp : s.port = []) : step s = .next (idle s) := by
  simp only [step, fetch, hp]

/-- Settles O54. -/
theorem stepRunsDecodedInstruction : Obligations.StepRunsDecodedInstruction :=
  fun _ _ => ⟨fun _ _ _ hp h => step_ops hp h, fun _ _ hp h => step_rx hp h, fun _ _ _ hp h => step_wire hp h,
    step_idle⟩

theorem encode_of_hostop {i : Instr} (h : i.format = .hostop) : encode i = .ops (encodeBytes i) := by
  cases i with
  | reset | feed | crc16 | encode | getCmd | getU8 | getI8 | getU16 | getI16 | getU32 | getI32 | getStr | getData
  | reservedD | reservedE | reservedF | reservedHigh => rfl
  | feeds | recv | rxStart | rxDrop | rxLenLow | rxLenHigh | rxAppend | rxLastOk | rxLastBad | frame => cases h

theorem eq_frame_of_format {i : Instr} (h : i.format = .frame) :
    ∃ w reserved counted checksum, i = .frame w reserved counted checksum := by
  cases i with
  | frame w reserved counted checksum => exact ⟨w, reserved, counted, checksum, rfl⟩
  | _ => cases h

/-- Settles O55: the encoding, with nothing after it, decodes to the instruction (R53, R40). -/
theorem stepRunsEncodedInstruction : Obligations.StepRunsEncodedInstruction := by
  intro s i rest hwf hf hp
  obtain hf | hf := hf
  · have hdec := decodeEncodeOperation i [] hf hwf
    rw [List.append_nil] at hdec
    exact step_ops (hp.trans (by rw [encode_of_hostop hf])) hdec
  · obtain ⟨w, reserved, counted, checksum, rfl⟩ := eq_frame_of_format hf
    have hdec := decodeFrame_frameBytes w reserved checksum [] (of_decide_eq_true hwf)
    rw [List.append_nil] at hdec
    exact step_wire hp hdec

theorem decoded_eq_some {r : Except DecodeError (Instr × List Byte)} {i : Instr} (h : decoded r = some i) :
    ∃ left, r = .ok (i, left) := by
  unfold decoded at h
  split at h
  next left => cases h; exact ⟨left, rfl⟩
  · cases h

/-- Settles O56: the word's item stands first in the host's input, and decodes to what the word decodes to. -/
theorem stepRunsFetchWord : Obligations.StepRunsFetchWord := by
  intro s nbits w i hst h
  simp only [decodeTableWord] at h
  simp only [State.withFetchWord]
  cases hitem : tableItem nbits w with
  | ops bs =>
    obtain ⟨left, hdec⟩ := decoded_eq_some (by simpa only [hitem] using h)
    exact ⟨_, step_ops rfl hdec⟩
  | rx b =>
    obtain rfl : (decodeRx .awaitStart false false b).instr b = i := Option.some.inj (by simpa only [hitem] using h)
    have hs : s.withSt .awaitStart = s := by rw [State.withSt, ← hst]
    simp only [presentItem, hs]
    exact ⟨_, step_rx rfl (by simp only [selectRow, State.withPort_st, hst])⟩
  | wire bs =>
    obtain ⟨left, hdec⟩ := decoded_eq_some (by simpa only [hitem] using h)
    exact ⟨_, step_wire rfl hdec⟩

/-! ### A pseudo-operation as a stream of single operations (R56; decision D4) -/

/-- A row of the byte decode answers one of FEED's outputs. -/
theorem advance_out {row : RxRow} {b : Byte} {s t : State} (h : advance row b s = .next t) :
    t.out = .fed t.out.status := by
  cases row with
  | lenHigh =>
    simp only [advance, advanceLenHigh] at h
    split at h
    · cases h
    next lo _ =>
      cases h
      simp only [lengthDecoded]
      split <;> rfl
  | start | drop | lenLow | append | lastOk | lastBad => cases h; rfl

theorem feedByte_out {b : Byte} {s t : State} (h : feedByte b s = .next t) : t.out = .fed t.out.status := by
  obtain ⟨row, -, h⟩ := feedByte_eq_next.1 h
  obtain ⟨u, -, h⟩ := andThen_eq_next.1 h
  exact advance_out h

/-- After a run of at least one FEED the result is the last FEED's output. -/
theorem feedAll_out {bs : List Byte} {s t : State} {l : List Status} (hbs : bs ≠ []) (h : feedAll bs s = .next (t, l)) :
    t.out = .fed (lastStatus l) := by
  induction bs generalizing s l with
  | nil => exact absurd rfl hbs
  | cons b bs ih =>
    obtain ⟨u, hu, h⟩ := andThen_eq_next.1 h
    obtain ⟨⟨v, l'⟩, hv, h⟩ := andThen_eq_next.1 h
    cases h
    cases bs with
    | nil => cases hv; exact feedByte_out hu
    | cons b' bs =>
      have hlast := ih (List.cons_ne_nil _ _) hv
      obtain ⟨u', -, hv⟩ := andThen_eq_next.1 hv
      obtain ⟨w, -, hv⟩ := andThen_eq_next.1 hv
      cases hv
      exact hlast

theorem run_succ_of_step {s t : State} {n : Nat} (h : step s = .next t) :
    Host.Core.run core (n + 1) s = Host.Core.run core n t := by
  have hcore : core.step s = .next t := h
  simp only [Host.Core.run, hcore]

/-- The steps of FEEDs written one after another in the operation stream. -/
theorem run_feedOps {bs : List Byte} {s t : State} {l : List Status} (rest : List Item)
    (h : feedAll bs s = .next (t, l)) :
    Host.Core.run core bs.length (s.withPort (leftOps (feedOps bs) rest)) = .next (t.withPort rest) := by
  induction bs generalizing s l with
  | nil => cases h; rfl
  | cons b bs ih =>
    obtain ⟨u, hu, h⟩ := andThen_eq_next.1 h
    obtain ⟨⟨v, l'⟩, hv, h⟩ := andThen_eq_next.1 h
    cases h
    have hstep : step (s.withPort (leftOps (feedOps (b :: bs)) rest)) =
        .next (u.withPort (leftOps (feedOps bs) rest)) := by
      have hfeed : exec (.feed b) (s.withPort (leftOps (feedOps bs) rest)) =
          andThen (feedByte b s) fun u => .next (u.withPort (leftOps (feedOps bs) rest)) :=
        hostBlind_feedByte b s s.out _
      rw [hu] at hfeed
      exact (step_ops (i := .feed b) (left := feedOps bs) rfl rfl).trans hfeed
    rw [List.length_cons, run_succ_of_step hstep]
    exact ih hv

/-- FEEDS in one step and FEED by FEED, from a state that meets the invariant. -/
theorem Inv.feeds_eq_run {s : State} (h : Inv s) {bs : List Byte} (hbs : bs ≠ []) :
    ∃ t l, exec (.feeds bs) s = .next t ∧ t.out = .feds l ∧
      Host.Core.run core bs.length (s.withPort (leftOps (feedOps bs) s.port)) =
        .next (t.withOut (.fed (lastStatus l))) := by
  obtain ⟨t, l, ht, -⟩ := h.exists_feedAll bs
  have hlist := feedList_of_feedAll ht
  have hport : (t.withOut (.feds l)).port = s.port := (hostBlind_feedList bs).port_eq hlist
  refine ⟨_, l, hlist, rfl, (run_feedOps s.port ht).trans ?_⟩
  rw [← hport, ← feedAll_out hbs ht]; rfl

/-- Settles O37: RECV's first step is RESET, and the steps after it are those of FEEDS from the reset block. -/
theorem pseudoOperationsRunAsExpansion : Obligations.PseudoOperationsRunAsExpansion := by
  intro s bs hbs
  refine ⟨fun h => ?_, ?_⟩
  · obtain ⟨t, l, ht, hout, hrun⟩ := h.feeds_eq_run hbs
    have hops : leftOps (feedOps bs) s.port = encode (.feeds bs) :: s.port := by
      cases bs with
      | nil => exact absurd rfl hbs
      | cons b bs => rfl
    rw [hops] at hrun
    exact ⟨t, l, ht, hout, hrun⟩
  · obtain ⟨t, l, ht, hout, hrun⟩ := ((inv_resetBlock s).withOut .nothing).feeds_eq_run hbs
    exact ⟨t, l, (recvIsResetThenFeeds s bs).trans ht, hout, hrun⟩

/-! ### A frame in the buffer (R31, R44) -/

/-- The bytes `f` stand at the front of `m`, and behind them `m` reads as `m₀`. -/
def Holds (m : Memory) (f : List Byte) (m₀ : Memory) : Prop := ∀ k, m.read k = f[k]?.or (m₀.read k)

theorem holds_nil (m : Memory) : Holds m [] m := fun _ => rfl

/-- Storing the byte behind `f` lengthens what the buffer holds by it. -/
theorem Holds.write {m m₀ : Memory} {f : List Byte} (h : Holds m f m₀) {n : Nat} (hn : n = f.length) (b : Byte) :
    Holds (m.write n b) (f ++ [b]) m₀ := by
  subst hn
  intro k
  by_cases e : k = f.length
  · subst e; simp
  · rw [Memory.read_write_ne _ b e, h k]
    by_cases hk : k < f.length
    · rw [List.getElem?_append_left hk]
    · have hk' : (f ++ [b]).length ≤ k := by rw [List.length_append, List.length_singleton]; omega
      rw [List.getElem?_eq_none (by omega), List.getElem?_eq_none hk']

section
variable {m m₀ : Memory} {f : List Byte} (h : Holds m f m₀)
include h

theorem Holds.read_of_lt {k : Nat} (hk : k < f.length) : m.read k = f[k]? := by
  rw [h k, List.getElem?_eq_getElem hk, Option.some_or]

theorem Holds.read_of_le {k : Nat} (hk : f.length ≤ k) : m.read k = m₀.read k := by
  rw [h k, List.getElem?_eq_none hk, Option.none_or]

theorem Holds.readRange : m.readRange 0 f.length = some f :=
  Memory.readRange_eq_some.2 ⟨rfl, fun k hk => by rw [Nat.zero_add]; exact h.read_of_lt hk⟩

end

/-! ### A frame fed from AwaitStart (R74 to R79) -/

/-- In ReadPayload with the bytes `f` of a frame stored and `left` bytes to come; behind the frame the buffer reads as
`m₀`. -/
structure Receiving (m₀ : Memory) (f : List Byte) (left : Nat) (s : State) : Prop where
  st : s.st = .readPayload
  size : s.size.toNat = f.length
  rem : s.rem.toNat = left
  holds : Holds s.buf f m₀

/-- The frame `f` has been taken to its end: the parser waits again, the counters and the buffer hold the frame's. -/
structure Received (m₀ : Memory) (f : List Byte) (t : State) : Prop where
  st : t.st = .awaitStart
  size : t.size.toNat = f.length
  rem : t.rem = 0
  holds : Holds t.buf f m₀

/-- The output on the last byte of a frame, by its checksum (R78, R79). -/
def checkStatus (f : List Byte) : Status := if checksumMatches f then .complete else .crcErr

/-- One FEED, then the rest, with the outputs of both. -/
theorem feedAll_cons {b : Byte} {bs : List Byte} {s t u : State} {x : Status} {l : List Status}
    (h : feedByte b s = .next t) (hx : t.out = .fed x) (hu : feedAll bs t = .next (u, l)) :
    feedAll (b :: bs) s = .next (u, x :: l) := by
  rw [feedAll_cons_of_next h, hu, hx]; rfl

theorem feedAll_singleton {b : Byte} {s t : State} {x : Status} (h : feedByte b s = .next t) (hx : t.out = .fed x) :
    feedAll [b] s = .next (t, [x]) :=
  feedAll_cons h hx (feedAll_nil t)

theorem feedByte_start {s : State} (hst : s.st = .awaitStart) : feedByte Config.start s =
    .next (((s.withBuf (s.buf.write 0 Config.start)).withSt .readLenLow).withOut (.fed .none)) :=
  (feedByte_of_selectRow (selectRow_awaitStart Config.start hst)).trans (applyRow_start _ s)

theorem feedByte_lenLow {s : State} (b : Byte) (hst : s.st = .readLenLow) : feedByte b s =
    .next (((s.withBuf (s.buf.write 1 b)).withSt .readLenHigh).withOut (.fed .none)) :=
  (feedByte_of_selectRow (selectRow_readLenLow b hst)).trans (applyRow_lenLow b s)

theorem feedByte_lenHigh {s : State} {lo : Byte} (b : Byte) (hst : s.st = .readLenHigh) (hlo : s.buf.read 1 = some lo) :
    feedByte b s = .next (lengthDecoded (lengthField lo b) (s.withBuf (s.buf.write 2 b))) :=
  (feedByte_of_selectRow (selectRow_readLenHigh b hst)).trans (applyRow_lenHigh b s hlo)

theorem feedByte_append {s : State} (b : Byte) (hst : s.st = .readPayload) (hr : 1 < s.rem.toNat)
    (hs : s.size.toNat < Config.bufCap) : feedByte b s =
      .next ((countByte (s.withBuf (s.buf.write s.size.toNat b))).withOut (.fed .none)) :=
  (feedByte_of_selectRow (selectRow_append b hst hr)).trans (applyRow_append b hs)

/-- The start marker and the low flag byte (R74, R75). -/
theorem feedAll_start_low {s : State} (lo : Byte) (hst : s.st = .awaitStart) :
    ∃ t, feedAll [Config.start, lo] s = .next (t, [.none, .none]) ∧ t.st = .readLenHigh ∧
      Holds t.buf [Config.start, lo] s.buf := by
  have hlow := feedByte_lenLow (s := ((s.withBuf (s.buf.write 0 Config.start)).withSt .readLenLow).withOut (.fed .none))
    lo rfl
  exact ⟨_, feedAll_cons (feedByte_start hst) rfl (feedAll_singleton hlow rfl), rfl,
    ((holds_nil s.buf).write rfl _).write rfl _⟩

theorem lengthDecoded_out (len : Nat) (s : State) :
    (lengthDecoded len s).out = .fed (if 1018 ≤ len then .lenErr else .none) := by
  simp only [lengthDecoded, lengthOverflow_iff]
  split <;> rfl

/-- The header, with a length field that the guard lets through (R74, R75, R76). -/
theorem feedAll_header {s : State} {lo hi : Byte} (hst : s.st = .awaitStart) (hL : lengthField lo hi ≤ 1017) :
    ∃ t, feedAll [Config.start, lo, hi] s = .next (t, List.replicate 3 .none) ∧
      Receiving s.buf [Config.start, lo, hi] (lengthField lo hi + 2) t := by
  obtain ⟨u, hu, hst', hholds⟩ := feedAll_start_low lo hst
  have hhigh := feedByte_lenHigh hi hst' (hholds 1)
  have hguard : ¬ 1018 ≤ lengthField lo hi := by omega
  refine ⟨_, feedAll_append hu (feedAll_singleton hhigh ((lengthDecoded_out _ _).trans (by rw [if_neg hguard]))), ?_⟩
  exact
    { st := (lengthDecoded_st _ _).trans (if_neg hguard)
      size := by rw [lengthDecoded_size]; rfl
      rem := lengthDecoded_rem_toNat (lengthField_lt lo hi) _
      holds := by rw [lengthDecoded_buf]; exact hholds.write rfl hi }

section
variable {m₀ : Memory} {f : List Byte} {s : State}

/-- A byte that is not the last (R77). -/
theorem Receiving.exists_append {left : Nat} (h : Receiving m₀ f (left + 2) s) (hf : f.length < Config.bufCap)
    (b : Byte) : ∃ t, feedByte b s = .next t ∧ t.out = .fed .none ∧ Receiving m₀ (f ++ [b]) (left + 1) t := by
  obtain ⟨hst, hsize, hrem, hholds⟩ := h
  have hfeed := feedByte_append b hst (by omega) (by rwa [hsize])
  simp only [Config.bufCap] at hf
  refine ⟨_, hfeed, rfl, hst, ?_, ?_, hholds.write hsize b⟩
  · rw [State.withOut_size, countByte_size_toNat] <;> simp [hsize]; omega
  · rw [State.withOut_rem, countByte_rem_toNat] <;> simp [hrem]

/-- All bytes but the last. -/
theorem Receiving.exists_appendAll {bs : List Byte} (h : Receiving m₀ f (bs.length + 1) s)
    (hf : f.length + bs.length ≤ Config.bufCap) :
    ∃ t, feedAll bs s = .next (t, List.replicate bs.length .none) ∧ Receiving m₀ (f ++ bs) 1 t := by
  induction bs generalizing f s with
  | nil => exact ⟨s, rfl, by rwa [List.append_nil]⟩
  | cons b bs ih =>
    rw [List.length_cons] at hf
    obtain ⟨u, hu, hout, hrec⟩ := h.exists_append (by omega) b
    obtain ⟨t, ht, hrec⟩ := ih hrec (by rw [List.length_append, List.length_singleton]; omega)
    exact ⟨t, feedAll_cons hu hout ht, by rwa [List.append_assoc] at hrec⟩

/-- The last byte: the checksum of the whole frame decides the output (R78, R79). -/
theorem Receiving.exists_last (h : Receiving m₀ f 1 s) (h1 : 1 ≤ f.length) (hf : f.length < Config.bufCap) (b : Byte) :
    ∃ t, feedByte b s = .next t ∧ t.out = .fed (checkStatus (f ++ [b])) ∧ Received m₀ (f ++ [b]) t := by
  obtain ⟨hst, hsize, hrem, hholds⟩ := h
  have hs : s.size.toNat < Config.bufCap := by rwa [hsize]
  have hread := (hholds.write hsize b).readRange
  rw [List.length_append, List.length_singleton, ← hsize] at hread
  have hsel := selectRow_last b hst (BitVec.eq_of_toNat_eq hrem) hs hread
    (by simp only [Config.crcBytes, List.length_append, List.length_singleton]; omega)
  simp only [Config.bufCap] at hf
  have hlast : Received m₀ (f ++ [b]) ((countByte (s.withBuf (s.buf.write s.size.toNat b))).withSt .awaitStart) := by
    refine ⟨rfl, ?_, ?_, hholds.write hsize b⟩
    · rw [State.withSt_size, countByte_size_toNat] <;> simp [hsize]; omega
    · apply BitVec.eq_of_toNat_eq
      rw [State.withSt_rem, countByte_rem_toNat] <;> simp [hrem]
  have hfeed := feedByte_of_selectRow hsel
  unfold checkStatus
  split at hfeed
  next hok =>
    rw [applyRow_lastOk b hs] at hfeed
    exact ⟨_, hfeed, by rw [if_pos hok]; rfl, { hlast with }⟩
  next hbad =>
    rw [applyRow_lastBad b hs] at hfeed
    exact ⟨_, hfeed, by rw [if_neg hbad]; rfl, { hlast with }⟩

end

/-- A whole frame from AwaitStart: nothing on every byte but the last, and the checksum's verdict on that one. -/
theorem feedAll_frame {s : State} {lo hi : Byte} {counted : List Byte} (c0 c1 : Byte) (hst : s.st = .awaitStart)
    (hlen : counted.length = lengthField lo hi) (hL : lengthField lo hi ≤ 1017) :
    ∃ t, feedAll (Config.start :: lo :: hi :: counted ++ [c0, c1]) s =
        .next (t, List.replicate (4 + counted.length) .none ++
          [checkStatus (Config.start :: lo :: hi :: counted ++ [c0, c1])]) ∧
      Received s.buf (Config.start :: lo :: hi :: counted ++ [c0, c1]) t := by
  obtain ⟨u, hu, hrec⟩ := feedAll_header hst hL
  obtain ⟨v, hv, hrec⟩ := Receiving.exists_appendAll (bs := counted ++ [c0]) (by simpa [hlen] using hrec)
    (by simp only [List.length_append, List.length_cons, List.length_nil, Config.bufCap]; omega)
  obtain ⟨t, ht, hout, hdone⟩ := hrec.exists_last (by simp)
    (by simp only [List.length_append, List.length_cons, List.length_nil, Config.bufCap]; omega) c1
  have hall := feedAll_append (feedAll_append hu hv) (feedAll_singleton ht hout)
  rw [List.replicate_append_replicate] at hall
  have hcount : 3 + (counted ++ [c0]).length = 4 + counted.length := by simp; omega
  rw [hcount] at hall
  exact ⟨t, by simpa using hall, by simpa using hdone⟩

/-! ### A frame on the wire (R40, R45) -/

theorem checkStatus_append (covered : List Byte) (c0 c1 : Byte) :
    checkStatus (covered ++ [c0, c1]) = if crc16 covered = half c0 c1 then .complete else .crcErr :=
  if_congr (checksumMatches_append covered c0 c1) rfl rfl

theorem checkStatus_frameBytes (w : Bool) (reserved : BitVec 5) (counted : List Byte) (checksum : Half) :
    checkStatus (frameBytes w reserved counted checksum) =
      if checksum = crc16 (Config.start :: halfBytes (flagsWord counted.length reserved w) ++ counted)
        then .complete else .crcErr := by
  refine (checkStatus_append _ _ _).trans ?_
  rw [half_lowByte_highByte]
  exact if_congr eq_comm rfl rfl

/-- Settles O45: a frame's bytes are a header whose length field is the number of counted bytes, these, and the
checksum. -/
theorem frameOnTheWireIsChecked : Obligations.FrameOnTheWireIsChecked := by
  intro s w reserved counted checksum hst hc
  have hfield := lengthField_flagsWord (show counted.length ≤ Config.lenMax by simp only [Config.lenMax]; omega)
    reserved w
  obtain ⟨t, ht, hdone⟩ := feedAll_frame (lowByte checksum) (highByte checksum) hst hfield.symm (by omega)
  have hexec : exec (.frame w reserved counted checksum) s = .next _ := feedList_of_feedAll ht
  have hf : Config.start :: _ :: _ :: counted ++ [_, _] = frameBytes w reserved counted checksum := rfl
  rw [hf] at hdone
  obtain ⟨hst', hsize, hrem, hholds⟩ := hdone
  refine ⟨_, hexec, ?_, hst', ?_, hrem, (hostBlind_exec _).port_eq hexec, hholds 0, hholds 1, hholds 2, fun a ha => ?_,
    ?_, ?_, fun a ha => ?_⟩
  · rw [State.withOut_out, hf, checkStatus_frameBytes]
  · rw [State.withOut_size, hsize, frameBytes_length]
  · rw [State.withOut_buf, hholds.read_of_lt (by rw [frameBytes_length]; omega)]
    simp [frameBytes, halfBytes, Nat.add_comm 3, List.getElem?_append_left ha]
  · rw [State.withOut_buf, hholds.read_of_lt (by rw [frameBytes_length]; omega)]
    simp [frameBytes, halfBytes, Nat.add_comm 3]
  · rw [State.withOut_buf, hholds.read_of_lt (by rw [frameBytes_length]; omega)]
    simp [frameBytes, halfBytes, Nat.add_comm 4]
  · exact hholds.read_of_le (by rwa [frameBytes_length])

end Sys2Proof.Machine

/-! PROOFS of the family 40_crc.md: one step of the CRC engine is the seven steps of R61, the closed form of R62 and one
byte of the bitwise CRC of R66; the checksum of a sequence, its linearity and its residue (R63, R64, R68, R69). -/

namespace Sys2Proof.Machine

/-! ### Words and their bytes -/

/-- Two exclusive ors side by side, taken part by part. -/
theorem xor_xor_xor_comm {n : Nat} (a b c d : BitVec n) : (a ^^^ b) ^^^ (c ^^^ d) = (a ^^^ c) ^^^ (b ^^^ d) := by
  ac_rfl

theorem highByte_xor (v v' : Half) : highByte (v ^^^ v') = highByte v ^^^ highByte v' := by
  simp only [highByte, BitVec.ushiftRight_xor_distrib, BitVec.setWidth_xor]

/-- The two bytes of a value share no bit. -/
theorem half_eq_xor (lo hi : Byte) : half lo hi = lo.setWidth 16 ^^^ (hi.setWidth 16 <<< 8) := by
  apply BitVec.eq_of_getLsbD_eq
  intro i h
  simp only [half, BitVec.getLsbD_or, BitVec.getLsbD_xor, BitVec.getLsbD_setWidth, BitVec.getLsbD_shiftLeft]
  by_cases h8 : i < 8
  · simp [h8]
  · simp [BitVec.getLsbD_of_ge lo i (by omega)]

theorem setWidth_highByte (v : Half) : (highByte v).setWidth 16 = v >>> 8 := by
  have := v.isLt
  apply BitVec.eq_of_toNat_eq
  simp [Nat.shiftRight_eq_div_pow]
  omega

theorem highByte_shiftLeft_eight (v : Half) : highByte (v <<< 8) = lowByte v := by
  apply BitVec.eq_of_toNat_eq
  simp [Nat.shiftLeft_eq]
  omega

theorem setWidth_and_byteMask (t : Byte) : t.setWidth 16 &&& (0xFF : Half) = t.setWidth 16 := by
  have ht : (t.setWidth 16).toNat < 2 ^ 8 := by simp; omega
  exact BitVec.eq_of_toNat_eq (Nat.and_two_pow_sub_one_of_lt_two_pow ht)

/-! ### One step (R61, R62) -/

/-- R62's `c`: step 2's value, from `t`, the register's high byte exclusive-ored with the data byte. -/
def crcCode (t : Byte) : Half := t.setWidth 16 ^^^ (t.setWidth 16 >>> 4)

/-- What one step adds to the register shifted left by 8 (R62). -/
def crcMix (t : Byte) : Half := crcCode t ^^^ (crcCode t <<< 5) ^^^ (crcCode t <<< 12)

theorem crcCode_xor (t t' : Byte) : crcCode (t ^^^ t') = crcCode t ^^^ crcCode t' := by
  rw [crcCode, BitVec.setWidth_xor, BitVec.ushiftRight_xor_distrib, xor_xor_xor_comm, crcCode, crcCode]

theorem crcMix_xor (t t' : Byte) : crcMix (t ^^^ t') = crcMix t ^^^ crcMix t' := by
  simp only [crcMix, crcCode_xor, BitVec.shiftLeft_xor_distrib]
  rw [xor_xor_xor_comm (crcCode t), xor_xor_xor_comm (crcCode t ^^^ _)]

/-- The seven steps in one expression: step 4 and step 6 shift by 12 together. -/
theorem crcStep_eq_mix (crc : Half) (b : Byte) : crcStep crc b = (crc <<< 8) ^^^ crcMix (highByte crc ^^^ b) := by
  simp only [crcStep, crcMix, crcCode, BitVec.setWidth_xor, setWidth_highByte, ← BitVec.shiftLeft_add, Nat.reduceAdd,
    BitVec.xor_assoc]

/-- Settles O14: each shift of a 16-bit value is a division, or a multiplication truncated to 16 bits. -/
theorem crcStepIsSevenSteps : Obligations.CrcStepIsSevenSteps := by
  refine ⟨by decide, fun crc b => ?_⟩
  have hb : (b.setWidth 16).toNat = b.toNat := by simp; omega
  simp only [crcStep, BitVec.toNat_xor, BitVec.toNat_ushiftRight, BitVec.toNat_shiftLeft, hb,
    Nat.shiftRight_eq_div_pow, Nat.shiftLeft_eq, Nat.reducePow]

/-- Settles O15: the mask changes nothing, both operands of step 1 being bytes. -/
theorem crcStepClosedForm : Obligations.CrcStepClosedForm := by
  intro crc b
  have ht : ((crc >>> 8) ^^^ b.setWidth 16) &&& 0xFF = (highByte crc ^^^ b).setWidth 16 := by
    rw [← setWidth_highByte, ← BitVec.setWidth_xor]
    exact setWidth_and_byteMask _
  simp only [ht, crcStep_eq_mix, crcMix, crcCode, BitVec.xor_assoc]

/-! ### The bitwise CRC (R66) -/

theorem crcBit_eq_xor (v : Half) : crcBit v = (v <<< 1) ^^^ (if v.getLsbD 15 then 0x1021 else 0) := by
  unfold crcBit
  split
  · rfl
  · exact BitVec.xor_zero.symm

theorem crcBit_xor (v v' : Half) : crcBit (v ^^^ v') = crcBit v ^^^ crcBit v' := by
  have hpoly : ∀ p q : Bool, (if p ^^ q then 0x1021 else 0 : Half) =
      (if p then 0x1021 else 0) ^^^ (if q then 0x1021 else 0) := by decide
  simp only [crcBit_eq_xor, BitVec.getLsbD_xor, BitVec.shiftLeft_xor_distrib, hpoly]
  exact xor_xor_xor_comm _ _ _ _

theorem crcBit_iterate_xor (n : Nat) (v v' : Half) : crcBit^[n] (v ^^^ v') = crcBit^[n] v ^^^ crcBit^[n] v' := by
  induction n generalizing v v' with
  | zero => rfl
  | succ n ih => simp only [Function.iterate_succ_apply, crcBit_xor, ih]

/-- A byte in the low half is shifted into the high half: bit 15 stays 0 all the way. -/
theorem crcBit_iterate_lowByte : ∀ t : Byte, crcBit^[8] (t.setWidth 16) = t.setWidth 16 <<< 8 := by decide

/-- A byte in the high half is shifted out, and leaves what the step of R61 adds. -/
theorem crcBit_iterate_highByte : ∀ t : Byte, crcBit^[8] (t.setWidth 16 <<< 8) = crcMix t := by decide

/-- Settles O16: both sides are linear, so the register's low byte and its high byte, with the data byte in it, are taken
one at a time. -/
theorem crcStepIsBitwiseCrc : Obligations.CrcStepIsBitwiseCrc := by
  intro crc b
  have hsplit : crc ^^^ (b.setWidth 16 <<< 8) =
      (lowByte crc).setWidth 16 ^^^ ((highByte crc ^^^ b).setWidth 16 <<< 8) := by
    rw [BitVec.setWidth_xor, BitVec.shiftLeft_xor_distrib, ← BitVec.xor_assoc, ← half_eq_xor, half_lowByte_highByte]
  have hlow : (lowByte crc).setWidth 16 <<< 8 = crc <<< 8 := by
    apply BitVec.eq_of_toNat_eq
    simp [Nat.shiftLeft_eq]
    omega
  calc crcStep crc b = (crc <<< 8) ^^^ crcMix (highByte crc ^^^ b) := crcStep_eq_mix crc b
    _ = crcBit^[8] ((lowByte crc).setWidth 16) ^^^ crcBit^[8] ((highByte crc ^^^ b).setWidth 16 <<< 8) := by
        rw [crcBit_iterate_lowByte, crcBit_iterate_highByte, hlow]
    _ = crcBit^[8] (crc ^^^ (b.setWidth 16 <<< 8)) := by rw [hsplit, crcBit_iterate_xor]
    _ = crcByteBitwise crc b := rfl

/-! ### A sequence (R63, R64) -/

/-- Settles O17: the loop over a concatenation goes on from the first part's checksum. -/
theorem crc16IsTheLoop : Obligations.Crc16IsTheLoop :=
  ⟨rfl, fun l b => crcFrom_append _ l [b], by decide⟩

theorem crcFrom_zero_replicate_zero (n : Nat) : crcFrom 0 (List.replicate n 0) = 0 := by
  induction n with
  | zero => rfl
  | succ n ih => exact ih

/-- A count's two bytes as numbers (30_encoding.md R53). -/
theorem countBytes_eq {n : Nat} (h : n ≤ maxCount) :
    countBytes n = [BitVec.ofNat 8 (n % 256), BitVec.ofNat 8 (n / 256)] := by
  have hn := (half_countBytes h).2
  have hlow : lowByte (BitVec.ofNat 16 n) = BitVec.ofNat 8 (n % 256) :=
    BitVec.eq_of_toNat_eq (by rw [lowByte_toNat, hn]; simp)
  have hhigh : highByte (BitVec.ofNat 16 n) = BitVec.ofNat 8 (n / 256) :=
    BitVec.eq_of_toNat_eq (by rw [highByte_toNat, hn]; simp at h ⊢; omega)
  rw [countBytes, halfBytes, hlow, hhigh]

/-- Settles O18: the engine's register stays 0 over leading zeros, and the operation is decoded as any counted one. -/
theorem crc16Operation : Obligations.Crc16Operation := by
  refine ⟨fun _ _ => rfl, fun n l => ?_, fun l rest hl => ?_, by decide⟩
  · show crcFrom 0 _ = crcFrom 0 l
    rw [crcFrom_append, crcFrom_zero_replicate_zero]
  · have h := decodeCrc_counted rest hl
    rw [countBytes_eq hl] at h
    exact h

/-! ### Linearity and residue (R68, R69) -/

theorem crcStep_xor (c c' : Half) (b b' : Byte) : crcStep (c ^^^ c') (b ^^^ b') = crcStep c b ^^^ crcStep c' b' := by
  simp only [crcStep_eq_mix, highByte_xor, xor_xor_xor_comm (highByte c), crcMix_xor, BitVec.shiftLeft_xor_distrib]
  exact xor_xor_xor_comm _ _ _ _

theorem crcFrom_zipWith_xor {l l' : List Byte} (h : l.length = l'.length) (c c' : Half) :
    crcFrom (c ^^^ c') (List.zipWith (fun a b => a ^^^ b) l l') = crcFrom c l ^^^ crcFrom c' l' := by
  induction l generalizing l' c c' with
  | nil =>
    obtain rfl := List.length_eq_zero_iff.1 h.symm
    rfl
  | cons b l ih =>
    obtain ⟨b', l', rfl⟩ := List.exists_cons_of_length_eq_add_one h.symm
    simp only [List.zipWith_cons_cons, crcFrom_cons, crcStep_xor, ih (Nat.succ.inj h)]

/-- Settles O19: both loops start from 0, and 0 is the exclusive or of 0 and 0. -/
theorem crc16IsLinear : Obligations.Crc16IsLinear :=
  fun _ _ h => crcFrom_zipWith_xor h 0 0

/-- The register's own high byte cancels: the step only shifts. -/
theorem crcStep_highByte (c : Half) : crcStep c (highByte c) = c <<< 8 := by
  rw [crcStep_eq_mix, BitVec.xor_self]
  exact BitVec.xor_zero

/-- Settles O20: the high byte shifts the register left by 8, and its low byte, now the high one, shifts the rest out. -/
theorem crcResidueHighByteFirst : Obligations.CrcResidueHighByteFirst := by
  intro l
  calc crc16 (l ++ [highByte (crc16 l), lowByte (crc16 l)])
      = crcStep (crcStep (crc16 l) (highByte (crc16 l))) (lowByte (crc16 l)) := crcFrom_append _ l _
    _ = (crc16 l <<< 8) <<< 8 := by rw [crcStep_highByte, ← highByte_shiftLeft_eight, crcStep_highByte]
    _ = 0 := by rw [← BitVec.shiftLeft_add]; exact BitVec.shiftLeft_eq_zero (by decide)

end Sys2Proof.Machine

/-! PROOFS of the family 41_parser.md: RESET and FEED rule by rule (R71 to R79), which instruction gives `complete`
(R80), and what a run of FEEDs makes of noise, of valid frames and of a frame with one bit flipped (R82 to R88). -/

namespace Sys2Proof.Machine

/-! ### RESET and FEED, rule by rule (R71 to R76) -/

/-- Settles O2. -/
theorem resetOperationClearsBlock : Obligations.ResetOperationClearsBlock :=
  fun _ => rfl

/-- The row selected: what it does is what FEED and the row's own instruction do. -/
theorem exec_of_selectRow {b : Byte} {s t : State} {row : RxRow} (hsel : selectRow b s = .next row)
    (happ : applyRow row b s = .next t) : exec (.feed b) s = .next t ∧ exec (row.instr b) s = .next t := by
  obtain ⟨-, -, -, -, -, hinstr, -⟩ := byteDecodeSelectsOneRow s b
  have hfeed : exec (.feed b) s = .next t := (feedByte_of_selectRow hsel).trans happ
  exact ⟨hfeed, (hinstr row hsel).trans hfeed⟩

/-- Settles O3. -/
theorem feedDropsNoise : Obligations.FeedDropsNoise := by
  intro s b hst hb
  have hsel : selectRow b s = .next .drop := (selectRow_awaitStart b hst).trans (by rw [if_neg hb])
  exact exec_of_selectRow hsel (applyRow_drop b s)

/-- Settles O4. -/
theorem feedTakesStartMarker : Obligations.FeedTakesStartMarker :=
  fun s hst => exec_of_selectRow (selectRow_awaitStart Config.start hst) (applyRow_start Config.start s)

/-- Settles O5. -/
theorem feedStoresFlagsLow : Obligations.FeedStoresFlagsLow :=
  fun s b hst => exec_of_selectRow (selectRow_readLenLow b hst) (applyRow_lenLow b s)

/-- All that the decoded length changes (R76), the guard written as the spec compares it. -/
theorem lengthDecoded_eq (len : Nat) (s : State) : lengthDecoded len s = { s with
    st := if len + 2 > 1019 then .awaitStart else .readPayload
    size := 3
    rem := (lengthDecoded len s).rem
    out := .fed (if len + 2 > 1019 then .lenErr else .none) } := by
  have hguard : len + 2 > 1019 ↔ lengthOverflow len = true := by
    rw [lengthOverflow_iff]
    omega
  simp only [hguard, lengthDecoded]
  split <;> rfl

/-- Settles O6: the guard and the two counters are those of the decoded length. -/
theorem feedDecodesLength : Obligations.FeedDecodesLength := by
  intro s lo b hst hlo
  obtain ⟨hfeed, hrx⟩ := exec_of_selectRow (selectRow_readLenHigh b hst) (applyRow_lenHigh b s hlo)
  rw [← lengthField_eq]
  exact ⟨_, hfeed, hrx, lengthDecoded_rem_toNat (lengthField_lt lo b) _, lengthDecoded_eq _ _⟩

/-! ### FEED in ReadPayload (R77 to R79) -/

/-- A byte stored inside the buffer is counted without wrapping. -/
theorem countByte_withBuf_size_toNat {s : State} (m : Memory) (hs : s.size.toNat < Config.bufCap) :
    (countByte (s.withBuf m)).size.toNat = s.size.toNat + 1 := by
  simp only [Config.bufCap] at hs
  exact countByte_size_toNat (by rw [State.withBuf_size]; omega)

/-- After the last byte none is left to come. -/
theorem countByte_withBuf_rem {s : State} (m : Memory) (hr : s.rem = 1) : (countByte (s.withBuf m)).rem = 0 := by
  rw [countByte_rem, State.withBuf_rem, hr]; rfl

/-- Settles O7: under the invariant at least two of the frame's at most 1022 bytes are still to come. -/
theorem feedAppendsByte : Obligations.FeedAppendsByte := by
  refine fun s b hst hr => ⟨fun h => ?_, fun hsize => ?_⟩
  · obtain ⟨hsum, hfit⟩ := h.payloadLength hst
    omega
  · obtain ⟨hfeed, hrx⟩ := exec_of_selectRow (selectRow_append b hst hr) (applyRow_append b hsize)
    exact ⟨_, hfeed, hrx, countByte_withBuf_size_toNat _ hsize,
      countByte_rem_toNat (by rw [State.withBuf_rem]; omega), rfl⟩

/-- The stored bytes of a frame that lacks its last one: the covered bytes and the checksum's low byte. -/
theorem readRange_covered {m : Memory} {n : Nat} {covered : List Byte} {c0 : Byte} (hn : 1 ≤ n)
    (hlen : covered.length = n - 1) (hcov : ∀ k, k < covered.length → m.read k = covered[k]?)
    (hc0 : m.read (n - 1) = some c0) : m.readRange 0 n = some (covered ++ [c0]) := by
  obtain ⟨n, rfl⟩ := Nat.exists_eq_add_of_le' hn
  rw [Nat.add_sub_cancel] at hlen hc0
  subst hlen
  refine Memory.readRange_eq_some.2 ⟨by simp, fun k hk => ?_⟩
  rw [Nat.zero_add]
  by_cases e : k = covered.length
  · rw [e, hc0, List.getElem?_concat_length]
  · rw [hcov k (by omega), List.getElem?_append_left (by omega)]

/-- The last byte's row, with the received checksum as a number. -/
theorem selectRow_checksum {s : State} {covered : List Byte} {c0 : Byte} (b : Byte) (hst : s.st = .readPayload)
    (hr : s.rem = 1) (hs : s.size.toNat < Config.bufCap)
    (hread : s.buf.readRange 0 s.size.toNat = some (covered ++ [c0])) : selectRow b s =
      .next (if (crc16 covered).toNat = c0.toNat + 256 * b.toNat then .lastOk else .lastBad) := by
  have hcheck : checksumMatches (covered ++ [c0] ++ [b]) = true ↔
      (crc16 covered).toNat = c0.toNat + 256 * b.toNat := by
    rw [List.append_assoc, List.singleton_append, checksumMatches_append, ← half_toNat, BitVec.toNat_inj]
  rw [selectRow_last b hst hr hs (readRange_lastStored hread) (by simp [Config.crcBytes])]
  simp only [hcheck]

/-- Settles O8: the whole frame stands in the buffer when its checksum is compared. -/
theorem feedCompletesFrame : Obligations.FeedCompletesFrame := by
  intro s b c0 covered hst hr h1 hs hlen hcov hc0 hcrc
  have hread := readRange_covered h1 hlen hcov hc0
  have hsel := selectRow_checksum b hst hr hs hread
  rw [if_pos hcrc] at hsel
  obtain ⟨hfeed, hrx⟩ := exec_of_selectRow hsel (applyRow_lastOk b hs)
  have hsize := countByte_withBuf_size_toNat (s.buf.write s.size.toNat b) hs
  obtain ⟨-, hstored⟩ := Memory.readRange_eq_some.1 (readRange_lastStored (b := b) hread)
  refine ⟨_, hfeed, hrx, hsize, rfl, rfl, rfl, fun h => ?_, fun k hk => ?_, ?_⟩
  · obtain ⟨hsum, -⟩ := h.payloadLength hst
    have hrem : s.rem.toNat = 1 := by rw [hr]; rfl
    simp only [State.withOut_size, State.withSt_size]
    omega
  · simp only [State.withOut_size, State.withSt_size, hsize] at hk
    simpa using hstored k hk
  · rw [← countByte_withBuf_rem (s.buf.write s.size.toNat b) hr]; rfl

/-- Settles O9: the other outcome of the same comparison. -/
theorem feedDiscardsBadFrame : Obligations.FeedDiscardsBadFrame := by
  intro s b c0 covered hst hr h1 hs hlen hcov hc0 hcrc
  have hsel := selectRow_checksum b hst hr hs (readRange_covered h1 hlen hcov hc0)
  rw [if_neg hcrc] at hsel
  obtain ⟨hfeed, hrx⟩ := exec_of_selectRow hsel (applyRow_lastBad b hs)
  refine ⟨_, hfeed, hrx, countByte_withBuf_size_toNat _ hs, rfl, ?_⟩
  rw [← countByte_withBuf_rem (s.buf.write s.size.toNat b) hr]; rfl

/-- Settles O10. -/
theorem feedIsTotal : Obligations.FeedIsTotal :=
  fun _ b h => h.exists_feedByte b

/-! ### Which instruction gives `complete` (R80) -/

/-- Of the rows of the byte decode, RX.LAST.OK alone gives `complete`. -/
theorem advance_complete {row : RxRow} {b : Byte} {s t : State} (h : advance row b s = .next t) :
    t.complete = true ↔ row = .lastOk := by
  cases row with
  | lenHigh =>
    simp only [advance, advanceLenHigh] at h
    split at h
    · cases h
    · cases h
      simp only [State.complete, lengthDecoded_out]
      split <;> simp [Result.status]
  | start | drop | lenLow | append | lastOk | lastBad => cases h; simp [State.complete, Result.status]

theorem feedByte_complete {b : Byte} {s t : State} (h : feedByte b s = .next t) :
    t.complete = true ↔ selectRow b s = .next .lastOk := by
  obtain ⟨row, hsel, happ⟩ := feedByte_eq_next.1 h
  obtain ⟨u, -, hadv⟩ := andThen_eq_next.1 happ
  rw [advance_complete hadv, hsel, Host.Outcome.next.injEq]

theorem runRow_complete {row : RxRow} {b : Byte} {s t : State} (h : runRow row b s = .next t)
    (hc : t.complete = true) : row = .lastOk := by
  have hsel := (feedByte_complete (feedByte_of_runRow h)).1 hc
  by_contra hne
  rw [runRow_of_ne hsel hne] at h
  cases h

theorem not_complete_of_status {t : State} (h : t.out.status = .none) : ¬ t.complete = true := by
  simp [State.complete, h]

theorem returnRead_status {addr n : Nat} {result : Nat → Result} {s t : State}
    (hresult : ∀ v, (result v).status = .none) (h : returnRead addr n result s = .next t) : t.out.status = .none := by
  obtain ⟨v, hout, -⟩ := returnRead_narrower h
  rw [hout]
  exact hresult v

theorem execGetStr_status {s t : State} (h : execGetStr s = .next t) : t.out.status = .none := by
  unfold execGetStr at h
  split at h <;> cases h <;> rfl

theorem execGetData_status {n : Nat} {s t : State} (h : execGetData n s = .next t) : t.out.status = .none := by
  unfold execGetData at h
  split at h
  · cases h
  · split at h <;> cases h
    rfl

theorem execEncode_status {cmd : Byte} {w : Bool} {data : List Byte} {s t : State}
    (h : execEncode cmd w data s = .next t) : t.out.status = .none := by
  unfold execEncode at h
  split at h <;> cases h
  rfl

/-- Settles O46, instruction by instruction: the accessors and the stateless operations hand over no status of FEED, and
a row's own instruction gives what its row gives. -/
theorem completeOnlyFromLastByte : Obligations.CompleteOnlyFromLastByte := by
  refine ⟨fun s t b h => feedByte_complete h, fun i s t h hc => ?_⟩
  cases i with
  | feed b => exact .inl ⟨b, rfl⟩
  | rxLastOk b => exact .inr (.inl ⟨b, rfl⟩)
  | feeds bs => exact .inr (.inr (.inl ⟨bs, rfl⟩))
  | recv bs => exact .inr (.inr (.inr (.inl ⟨bs, rfl⟩)))
  | frame w reserved counted checksum => exact .inr (.inr (.inr (.inr ⟨w, reserved, counted, checksum, rfl⟩)))
  | rxStart | rxDrop | rxLenLow | rxLenHigh | rxAppend | rxLastBad => cases runRow_complete h hc
  | reset | crc16 => cases h; exact absurd hc (not_complete_of_status rfl)
  | encode => exact absurd hc (not_complete_of_status (execEncode_status h))
  | getCmd | getU8 | getI8 | getU16 | getI16 | getU32 | getI32 =>
    exact absurd hc (not_complete_of_status (returnRead_status (fun _ => rfl) h))
  | getStr => exact absurd hc (not_complete_of_status (execGetStr_status h))
  | getData => exact absurd hc (not_complete_of_status (execGetData_status h))
  | reservedD | reservedE | reservedF | reservedHigh => cases h

/-! ### Noise, and a length field that the guard rejects (R73, R76, R84) -/

/-- A run of noise changes nothing but the outputs. -/
theorem feedAll_noise {s : State} {g : List Byte} (hst : s.st = .awaitStart) (hg : Config.start ∉ g) :
    ∃ r, feedAll g s = .next (s.withOut r, List.replicate g.length .none) := by
  induction g generalizing s with
  | nil => exact ⟨s.out, rfl⟩
  | cons b g ih =>
    obtain ⟨hb, hg⟩ := not_or.1 (mt List.mem_cons.2 hg)
    obtain ⟨hfeed, -⟩ := feedDropsNoise s b hst (Ne.symm hb)
    obtain ⟨r, hr⟩ := ih (s := s.withOut (.fed .none)) hst hg
    exact ⟨r, feedAll_cons hfeed rfl hr⟩

/-- Settles O39. -/
theorem noiseLeavesBlockUntouched : Obligations.NoiseLeavesBlockUntouched := by
  intro s g hst hg
  obtain ⟨r, hr⟩ := feedAll_noise hst hg
  exact feedList_of_feedAll (t := s.withOut r) hr

/-- Settles O38: the guard takes its abort branch on the third byte. -/
theorem lengthGuardAborts : Obligations.LengthGuardAborts := by
  intro s lo hi hst hL
  obtain ⟨u, hu, hst', hholds⟩ := feedAll_start_low lo hst
  have hhigh := feedByte_lenHigh hi hst' (hholds 1)
  have hout := lengthDecoded_out (lengthField lo hi) (u.withBuf (u.buf.write 2 hi))
  rw [if_pos hL] at hout
  have hexec : exec (.feeds [0xAA, lo, hi]) s = .next _ :=
    feedList_of_feedAll (feedAll_append hu (feedAll_singleton hhigh hout))
  have hstored : Holds (lengthDecoded (lengthField lo hi) (u.withBuf (u.buf.write 2 hi))).buf
      [0xAA, lo, hi] s.buf := by
    rw [lengthDecoded_buf]
    exact hholds.write rfl hi
  exact ⟨_, hexec, rfl, (lengthDecoded_st _ _).trans (if_pos hL), lengthDecoded_size _ _,
    lengthDecoded_rem_toNat (lengthField_lt lo hi) _, (hostBlind_exec _).port_eq hexec, hstored 0, hstored 1,
    hstored 2, fun a ha => hstored.read_of_le ha⟩

/-! ### Frames fed from AwaitStart (R80, R83, R88) -/

/-- A valid frame but for its checksum (R50): the start marker, and a length field that is let through and gives the
frame's length. -/
structure Framed (f : List Byte) : Prop where
  five : 5 ≤ f.length
  start : f.getD 0 0 = Config.start
  length : f.length = 5 + lengthField (f.getD 1 0) (f.getD 2 0)
  bound : lengthField (f.getD 1 0) (f.getD 2 0) ≤ 1017

theorem validFrame_iff {f : List Byte} : validFrame f = true ↔ Framed f ∧ checksumMatches f = true := by
  simp only [validFrame, Bool.and_eq_true, decide_eq_true_eq]
  constructor
  · rintro ⟨⟨⟨⟨hfive, hstart⟩, hlen⟩, hbound⟩, hcheck⟩
    exact ⟨⟨hfive, hstart, hlen, hbound⟩, hcheck⟩
  · rintro ⟨⟨hfive, hstart, hlen, hbound⟩, hcheck⟩
    exact ⟨⟨⟨⟨hfive, hstart⟩, hlen⟩, hbound⟩, hcheck⟩

/-- The parts of such a frame: header, counted bytes, the two bytes of the checksum field. -/
theorem Framed.eq_append {f : List Byte} (h : Framed f) :
    ∃ lo hi counted c0 c1, f = Config.start :: lo :: hi :: counted ++ [c0, c1] ∧
      counted.length = lengthField lo hi ∧ lengthField lo hi ≤ 1017 := by
  obtain ⟨hfive, hstart, hlen, hbound⟩ := h
  match f, hfive with
  | x :: lo :: hi :: body, _ =>
    simp only [List.getD_cons_zero, List.getD_cons_succ] at hstart hlen hbound
    simp only [List.length_cons] at hlen
    obtain ⟨counted, c0, c1, rfl, hl⟩ := exists_append_two (show body.length = lengthField lo hi + 2 by omega)
    exact ⟨lo, hi, counted, c0, c1, by rw [hstart]; rfl, hl, hbound⟩

/-- Whatever its checksum, such a frame is taken to its last byte, and only that byte gives an output. -/
theorem Framed.exists_feedAll {f : List Byte} (h : Framed f) {s : State} (hst : s.st = .awaitStart) :
    ∃ t, feedAll f s = .next (t, List.replicate (f.length - 1) .none ++ [checkStatus f]) ∧ Received s.buf f t := by
  obtain ⟨lo, hi, counted, c0, c1, rfl, hlen, hbound⟩ := h.eq_append
  have hcount : (Config.start :: lo :: hi :: counted ++ [c0, c1]).length - 1 = 4 + counted.length := by
    simp; omega
  rw [hcount]
  exact feedAll_frame c0 c1 hst hlen hbound

theorem feedAll_validFrame {f : List Byte} (h : validFrame f = true) {s : State} (hst : s.st = .awaitStart) :
    ∃ t, feedAll f s = .next (t, List.replicate (f.length - 1) .none ++ [.complete]) ∧ Received s.buf f t := by
  obtain ⟨hframed, hcheck⟩ := validFrame_iff.1 h
  have hstatus : checkStatus f = .complete := if_pos hcheck
  rw [← hstatus]
  exact hframed.exists_feedAll hst

/-- Settles O40. -/
theorem validFrameCompletes : Obligations.ValidFrameCompletes := by
  intro s f hst hf
  obtain ⟨t, ht, hst', hsize, hrem, hholds⟩ := feedAll_validFrame hf hst
  have hexec : exec (.feeds f) s = .next _ := feedList_of_feedAll ht
  exact ⟨_, hexec, rfl, hst', hsize, hrem, (hostBlind_exec _).port_eq hexec, fun a ha => hholds.read_of_lt ha,
    fun a ha => hholds.read_of_le ha⟩

/-- Settles O42: after the noise the parser still awaits a start marker. -/
theorem parserResynchronises : Obligations.ParserResynchronises := by
  intro s g f hst hg hf
  obtain ⟨r, hnoise⟩ := feedAll_noise hst hg
  obtain ⟨t, ht, hdone⟩ := feedAll_validFrame hf (s := s.withOut r) hst
  refine ⟨_, feedList_of_feedAll (feedAll_append hnoise ht), ?_, hdone.st⟩
  have hfive := (validFrame_iff.1 hf).1.five
  rw [State.withOut_out, ← List.append_assoc, List.replicate_append_replicate, ← Nat.add_sub_assoc (by omega)]

/-- Settles O43: the first frame leaves the parser in AwaitStart, where the second is taken like it. -/
theorem backToBackFramesComplete : Obligations.BackToBackFramesComplete := by
  intro s f g hst hf hg
  obtain ⟨u, hu, hfirst⟩ := feedAll_validFrame hf hst
  obtain ⟨t, ht, hst', hsize, -, hholds⟩ := feedAll_validFrame hg hfirst.st
  exact ⟨_, feedList_of_feedAll (feedAll_append hu ht), rfl, hst', hsize, fun a ha => hholds.read_of_lt ha⟩

/-! ### The round trip (R82) -/

/-- What ENCODE builds is laid out as the parser expects up to 1016 data bytes (R108). -/
theorem framed_encodeFrame (cmd : Byte) (w : Bool) {data : List Byte} (h : data.length ≤ 1016) :
    Framed (encodeFrame cmd w data) := by
  have hfield : lengthField ((encodeFrame cmd w data).getD 1 0) ((encodeFrame cmd w data).getD 2 0) =
      data.length + 1 := by
    have hmax : data.length + 1 ≤ Config.lenMax := by simp only [Config.lenMax]; omega
    have hparts := lengthField_flagsWord hmax 0 w
    rwa [← requestFlags_eq] at hparts
  exact
    { five := by rw [encodeFrame_length]; omega
      start := rfl
      length := by rw [hfield, encodeFrame_length]; omega
      bound := by omega }

theorem checksumMatches_encodeFrame (cmd : Byte) (w : Bool) (data : List Byte) :
    checksumMatches (encodeFrame cmd w data) = true :=
  (checksumMatches_append _ _ _).2 (half_lowByte_highByte _).symm

theorem validFrame_encodeFrame (cmd : Byte) (w : Bool) {data : List Byte} (h : data.length ≤ 1016) :
    validFrame (encodeFrame cmd w data) = true :=
  validFrame_iff.2 ⟨framed_encodeFrame cmd w h, checksumMatches_encodeFrame cmd w data⟩

theorem execEncode_of_le (cmd : Byte) (w : Bool) {data : List Byte} (s : State)
    (h : data.length + 1 ≤ Config.lenMax) :
    execEncode cmd w data s = .next (s.withOut (.frame (encodeFrame cmd w data))) :=
  if_pos h

theorem encodeFrame_getElem?_data (cmd : Byte) (w : Bool) {data : List Byte} {k : Nat} (hk : k < data.length) :
    (encodeFrame cmd w data)[4 + k]? = data[k]? := by
  simp [encodeFrame, frameHead, Nat.add_comm 4, List.getElem?_append_left hk]

theorem execGetCmd_of_read {s : State} {b : Byte} (h : s.buf.read 3 = some b) :
    execGetCmd s = .next (s.withOut (.u8 b)) := by
  have hread : s.buf.memRead Config.cmdOff 1 = some b.toNat := by
    simp [Memory.memRead, Memory.readRange, h, leNat]
  rw [execGetCmd, returnRead_of_memRead _ hread, BitVec.ofNat_toNat, BitVec.setWidth_eq]

theorem execGetData_of_readRange {s : State} {l : List Byte} (hl : 4 + l.length ≤ Config.bufCap)
    (h : s.buf.readRange 4 l.length = some l) : execGetData l.length s = .next (s.withOut (.data l)) := by
  simp only [execGetData, Config.dataOff, if_neg (Nat.not_lt.2 hl), h]

/-- Settles O41: ENCODE builds a valid frame, which completes and then stands in the buffer where the accessors read. -/
theorem encodeThenFeedRoundTrip : Obligations.EncodeThenFeedRoundTrip := by
  intro s cmd w data hst hdata
  obtain ⟨t, hexec, hout, hst', hsize, -, -, hread, -⟩ :=
    validFrameCompletes s (encodeFrame cmd w data) hst (validFrame_encodeFrame cmd w hdata)
  rw [encodeFrame_length] at hout hsize hread
  have hrange : t.buf.readRange 4 data.length = some data :=
    Memory.readRange_eq_some.2 ⟨rfl, fun k hk => by
      rw [hread (4 + k) (by omega), encodeFrame_getElem?_data cmd w hk]⟩
  refine ⟨_, t, execEncode_of_le cmd w s (by simp only [Config.lenMax]; omega), hexec, ?_, hst', hsize,
    execGetCmd_of_read (hread 3 (by omega)),
    execGetData_of_readRange (by simp only [Config.bufCap]; omega) hrange⟩
  rw [hout, Nat.sub_add_comm (by decide)]

/-! ### One wrong byte is always detected (R68, R85) -/

theorem lowByte_xor (v v' : Half) : lowByte (v ^^^ v') = lowByte v ^^^ lowByte v' :=
  BitVec.setWidth_xor

theorem lowByte_shiftLeft_eight (v : Half) : lowByte (v <<< 8) = 0 := by
  apply BitVec.eq_of_toNat_eq
  simp [Nat.shiftLeft_eq]

/-- The low byte of what a step adds already shows whether there is anything to add. -/
theorem eq_zero_of_lowByte_crcMix : ∀ t : Byte, lowByte (crcMix t) = 0 → t = 0 := by decide

/-- A step leads to 0 only from a register that the data byte cancels. -/
theorem crcStep_eq_zero {c : Half} {b : Byte} (h : crcStep c b = 0) : highByte c = b ∧ lowByte c = 0 := by
  have hmix : lowByte (crcMix (highByte c ^^^ b)) = 0 := by
    have hlow := congrArg lowByte h
    rw [crcStep_eq_mix, lowByte_xor, lowByte_shiftLeft_eight] at hlow
    exact BitVec.zero_xor.symm.trans hlow
  obtain rfl : highByte c = b := BitVec.xor_eq_zero_iff.1 (eq_zero_of_lowByte_crcMix _ hmix)
  rw [crcStep_highByte] at h
  exact ⟨rfl, by rw [← highByte_shiftLeft_eight, h]; rfl⟩

/-- By linearity, two steps agree only where the registers' difference is cancelled by the data bytes'. -/
theorem crcStep_eq_crcStep {c c' : Half} {b b' : Byte} (h : crcStep c b = crcStep c' b') :
    highByte (c ^^^ c') = b ^^^ b' ∧ lowByte (c ^^^ c') = 0 :=
  crcStep_eq_zero (by rw [crcStep_xor, h]; exact BitVec.xor_self)

theorem crcStep_injective_byte (c : Half) : Function.Injective (crcStep c) := by
  intro b b' h
  obtain ⟨hhigh, -⟩ := crcStep_eq_crcStep h
  rw [BitVec.xor_self] at hhigh
  exact BitVec.xor_eq_zero_iff.1 hhigh.symm

theorem crcStep_injective_register (b : Byte) : Function.Injective fun c => crcStep c b := by
  intro c c' h
  obtain ⟨hhigh, hlow⟩ := crcStep_eq_crcStep h
  rw [BitVec.xor_self] at hhigh
  rw [← BitVec.xor_eq_zero_iff, ← half_lowByte_highByte (c ^^^ c'), hhigh, hlow]
  rfl

theorem crcFrom_injective_register (l : List Byte) : Function.Injective fun c => crcFrom c l := by
  induction l with
  | nil => exact fun _ _ h => h
  | cons b l ih => exact ih.comp (crcStep_injective_register b)

/-- One byte replaced by another changes the checksum. -/
theorem crcFrom_set_ne {l : List Byte} {p : Nat} {v : Byte} (hp : p < l.length) (hv : v ≠ l[p]) (c : Half) :
    crcFrom c (l.set p v) ≠ crcFrom c l := by
  induction l generalizing p c with
  | nil => cases hp
  | cons b l ih =>
    cases p with
    | zero => exact fun h => hv (crcStep_injective_byte c (crcFrom_injective_register l h))
    | succ p => exact ih (Nat.lt_of_succ_lt_succ hp) hv (crcStep c b)

theorem half_inj {lo hi lo' hi' : Byte} (h : half lo hi = half lo' hi') : lo = lo' ∧ hi = hi' :=
  ⟨by rw [← lowByte_half lo hi, h, lowByte_half], by rw [← highByte_half lo hi, h, highByte_half]⟩

/-- One byte replaced, covered or of the checksum field: the check fails. -/
theorem not_checksumMatches_set {covered : List Byte} {c0 c1 v : Byte} {p : Nat}
    (h : checksumMatches (covered ++ [c0, c1]) = true) (hp : p < (covered ++ [c0, c1]).length)
    (hv : v ≠ (covered ++ [c0, c1])[p]) : ¬ checksumMatches ((covered ++ [c0, c1]).set p v) = true := by
  have hcrc := (checksumMatches_append covered c0 c1).1 h
  rw [List.set_append]
  split
  next hcov =>
    rw [checksumMatches_append, ← hcrc]
    rw [List.getElem_append_left hcov] at hv
    exact crcFrom_set_ne hcov hv _
  next hcov =>
    obtain ⟨k, rfl⟩ := Nat.exists_eq_add_of_le (Nat.not_lt.1 hcov)
    rw [List.getElem_append_right (Nat.le_add_right _ _)] at hv
    simp only [Nat.add_sub_cancel_left] at hv ⊢
    simp only [List.length_append, List.length_cons, List.length_nil] at hp
    intro hm
    obtain rfl | rfl : k = 0 ∨ k = 1 := by omega
    · obtain ⟨hlow, -⟩ := half_inj (hcrc.symm.trans ((checksumMatches_append _ _ _).1 hm))
      exact hv hlow.symm
    · obtain ⟨-, hhigh⟩ := half_inj (hcrc.symm.trans ((checksumMatches_append _ _ _).1 hm))
      exact hv hhigh.symm

/-- What the layout of a frame rests on: its length, its start marker and its length field. -/
theorem Framed.of_header {f g : List Byte} (h : Framed f) (hlen : g.length = f.length)
    (hstart : g.getD 0 0 = f.getD 0 0)
    (hfield : lengthField (g.getD 1 0) (g.getD 2 0) = lengthField (f.getD 1 0) (f.getD 2 0)) : Framed g where
  five := hlen ▸ h.five
  start := hstart.trans h.start
  length := by rw [hlen, hfield]; exact h.length
  bound := hfield ▸ h.bound

theorem getD_set_ne (f : List Byte) {p i : Nat} (v : Byte) (h : p ≠ i) : (f.set p v).getD i 0 = f.getD i 0 := by
  simp [List.getD, List.getElem?_set_ne h]

theorem getD_set_self {f : List Byte} {p : Nat} (v : Byte) (h : p < f.length) : (f.set p v).getD p 0 = v := by
  simp [List.getD, h]

theorem flipped_ne {k : Nat} (hk : k < 8) (b : Byte) : b ^^^ (1#8 <<< k) ≠ b := by
  have hbit : 1#8 <<< k ≠ 0#8 := by
    interval_cases k <;> decide
  simpa using hbit

/-- Bits 5 to 0 of the low flag byte are none of the length field's (R41). -/
theorem lengthField_flipped {k : Nat} (hk : k < 6) (lo hi : Byte) :
    lengthField (lo ^^^ (1#8 <<< k)) hi = lengthField lo hi := by
  have hbit : (1#8 <<< k) >>> 6 = 0#8 := by
    interval_cases k <;> rfl
  have hshift : (lo ^^^ (1#8 <<< k)) >>> 6 = lo >>> 6 := by
    rw [BitVec.ushiftRight_xor_distrib, hbit, BitVec.xor_zero]
  have hnat := congrArg BitVec.toNat hshift
  simp only [BitVec.toNat_ushiftRight, Nat.shiftRight_eq_div_pow] at hnat
  rw [lengthField_eq, lengthField_eq]
  omega

theorem Framed.flipBit {f : List Byte} (h : Framed f) {p k : Nat} (hpos : (p = 1 ∧ k < 6) ∨ 3 ≤ p) :
    Framed (flipBit f p k) := by
  have hfive := h.five
  unfold Machine.flipBit
  refine h.of_header List.length_set (getD_set_ne f _ (by omega)) ?_
  rw [getD_set_ne f _ (show p ≠ 2 by omega)]
  obtain ⟨rfl, hk⟩ | hp := hpos
  · rw [getD_set_self _ (by omega), lengthField_flipped hk]
  · rw [getD_set_ne f _ (by omega)]

theorem not_checksumMatches_flipBit {f : List Byte} {p k : Nat} (h : validFrame f = true) (hp : p < f.length)
    (hk : k < 8) : ¬ checksumMatches (flipBit f p k) = true := by
  obtain ⟨hframed, hcheck⟩ := validFrame_iff.1 h
  obtain ⟨lo, hi, counted, c0, c1, rfl, -, -⟩ := hframed.eq_append
  refine not_checksumMatches_set hcheck hp ?_
  rw [List.getD_eq_getElem _ _ hp]
  exact flipped_ne hk _

/-- Settles O44: the flipped frame is taken to the same last byte, where the check fails. -/
theorem singleBitErrorIsDetected : Obligations.SingleBitErrorIsDetected := by
  intro s f p k hst hf hp hk hpos
  obtain ⟨t, ht, hdone⟩ := ((validFrame_iff.1 hf).1.flipBit hpos).exists_feedAll hst
  have hlen : (flipBit f p k).length = f.length := List.length_set
  have hstatus : checkStatus (flipBit f p k) = .crcErr := if_neg (not_checksumMatches_flipBit hf hp hk)
  rw [hlen, hstatus] at ht
  exact ⟨_, feedList_of_feedAll ht, rfl, hdone.st⟩

end Sys2Proof.Machine

/-! PROOFS of the family 42_accessors.md: what each accessor answers and when it is refused (R91 to R99), and that it
reads the buffer alone and writes nothing of the block (R90). -/

namespace Sys2Proof.Machine

/-! ### Reads of one, two and four bytes (R30), and reads that are refused (R90) -/

/-- A byte put below a word, as in a little-endian read. -/
theorem append_byte_toNat {w : Nat} (hi : BitVec w) (lo : Byte) : (hi ++ lo).toNat = lo.toNat + 256 * hi.toNat := by
  rw [BitVec.toNat_append, ← Nat.shiftLeft_add_eq_or_of_lt lo.isLt, Nat.shiftLeft_eq]
  omega

/-- The model's signed reading of a word's bits is two's complement (decision D11). -/
theorem signedOf_toNat {w : Nat} (v : BitVec w) : signedOf w v.toNat = v.toInt := by
  cases w with
  | zero => simp [BitVec.of_length_zero, signedOf]
  | succ w =>
    have hhalf : v.toNat < 2 ^ w ↔ 2 * v.toNat < 2 ^ (w + 1) := by rw [pow_succ']; omega
    simp only [signedOf, BitVec.toInt_eq_toNat_cond, Nat.add_sub_cancel, hhalf]
    norm_cast

section
variable {m : Memory} {a : Nat} {b0 b1 b2 b3 : Byte}

theorem Memory.memRead_one (h0 : m.read a = some b0) : m.memRead a 1 = some b0.toNat := by
  simp [Memory.memRead, Memory.readRange, leNat, h0]

theorem Memory.memRead_two (h0 : m.read a = some b0) (h1 : m.read (a + 1) = some b1) :
    m.memRead a 2 = some (b1 ++ b0 : BitVec 16).toNat := by
  simp [Memory.memRead, Memory.readRange, leNat, h0, h1, append_byte_toNat, -BitVec.toNat_append]

theorem Memory.memRead_four (h0 : m.read a = some b0) (h1 : m.read (a + 1) = some b1)
    (h2 : m.read (a + 2) = some b2) (h3 : m.read (a + 3) = some b3) :
    m.memRead a 4 = some (b3 ++ b2 ++ b1 ++ b0 : BitVec 32).toNat := by
  simp [Memory.memRead, Memory.readRange, leNat, h0, h1, h2, h3, append_byte_toNat, -BitVec.toNat_append]

end

/-- One unwritten byte leaves the whole run without a value. -/
theorem Memory.readRange_eq_none {m : Memory} {a n k : Nat} (hk : k < n) (h : m.read (a + k) = none) :
    m.readRange a n = none := by
  rw [Option.eq_none_iff_forall_ne_some]
  exact fun l hl => Memory.readRange_isSome.1 ⟨l, hl⟩ k hk h

theorem returnRead_of_unwritten {addr n : Nat} {result : Nat → Result} {s : State} (k : Nat) (hk : k < n)
    (h : s.buf.read (addr + k) = none) : returnRead addr n result s = .refused .unwrittenByte := by
  simp only [returnRead, Memory.memRead, Memory.readRange_eq_none hk h, Option.map_none]

/-! ### The byte and number accessors (R91 to R97) -/

section
variable {s : State} {b0 b1 b2 b3 : Byte}

theorem execGetU8_of_read (h0 : s.buf.read 4 = some b0) : execGetU8 s = .next (s.withOut (.u8 b0)) := by
  rw [execGetU8, returnRead_of_memRead _ (Memory.memRead_one h0), BitVec.ofNat_toNat, BitVec.setWidth_eq]

theorem execGetI8_of_read (h0 : s.buf.read 4 = some b0) : execGetI8 s = .next (s.withOut (.i8 b0.toInt)) := by
  rw [execGetI8, returnRead_of_memRead _ (Memory.memRead_one h0), signedOf_toNat]

theorem execGetU16_of_read (h0 : s.buf.read 4 = some b0) (h1 : s.buf.read 5 = some b1) :
    execGetU16 s = .next (s.withOut (.u16 (b1 ++ b0))) := by
  rw [execGetU16, returnRead_of_memRead _ (Memory.memRead_two h0 h1), BitVec.ofNat_toNat, BitVec.setWidth_eq]

theorem execGetI16_of_read (h0 : s.buf.read 4 = some b0) (h1 : s.buf.read 5 = some b1) :
    execGetI16 s = .next (s.withOut (.i16 (b1 ++ b0 : BitVec 16).toInt)) := by
  rw [execGetI16, returnRead_of_memRead _ (Memory.memRead_two h0 h1), signedOf_toNat]

theorem execGetU32_of_read (h0 : s.buf.read 4 = some b0) (h1 : s.buf.read 5 = some b1) (h2 : s.buf.read 6 = some b2)
    (h3 : s.buf.read 7 = some b3) : execGetU32 s = .next (s.withOut (.u32 (b3 ++ b2 ++ b1 ++ b0))) := by
  rw [execGetU32, returnRead_of_memRead _ (Memory.memRead_four h0 h1 h2 h3), BitVec.ofNat_toNat, BitVec.setWidth_eq]

theorem execGetI32_of_read (h0 : s.buf.read 4 = some b0) (h1 : s.buf.read 5 = some b1) (h2 : s.buf.read 6 = some b2)
    (h3 : s.buf.read 7 = some b3) :
    execGetI32 s = .next (s.withOut (.i32 (b3 ++ b2 ++ b1 ++ b0 : BitVec 32).toInt)) := by
  rw [execGetI32, returnRead_of_memRead _ (Memory.memRead_four h0 h1 h2 h3), signedOf_toNat]

end

/-- Settles O25. -/
theorem byteAccessorsRead : Obligations.ByteAccessorsRead :=
  fun _ => ⟨fun _ => execGetCmd_of_read, returnRead_of_unwritten 0 (by decide),
    fun _ => execGetU8_of_read, returnRead_of_unwritten 0 (by decide)⟩

/-- Settles O26: the value read is that of the word `buf[5] ++ buf[4]`. -/
theorem getU16ReadsLittleEndian : Obligations.GetU16ReadsLittleEndian := by
  refine ⟨fun _ => rfl, fun s => ⟨fun b0 b1 h0 h1 => ?_, ?_⟩⟩
  · exact ⟨b1 ++ b0, append_byte_toNat b1 b0, execGetU16_of_read h0 h1⟩
  · rintro (h | h)
    · exact returnRead_of_unwritten 0 (by decide) h
    · exact returnRead_of_unwritten 1 (by decide) h

/-- Settles O27: the value read is that of the word `buf[7] ++ buf[6] ++ buf[5] ++ buf[4]`. -/
theorem getU32ReadsLittleEndian : Obligations.GetU32ReadsLittleEndian := by
  refine ⟨fun _ => rfl, fun s => ⟨fun b0 b1 b2 b3 h0 h1 h2 h3 => ?_, ?_⟩⟩
  · refine ⟨b3 ++ b2 ++ b1 ++ b0, ?_, execGetU32_of_read h0 h1 h2 h3⟩
    simp only [append_byte_toNat]
    omega
  · rintro (h | h | h | h)
    · exact returnRead_of_unwritten 0 (by decide) h
    · exact returnRead_of_unwritten 1 (by decide) h
    · exact returnRead_of_unwritten 2 (by decide) h
    · exact returnRead_of_unwritten 3 (by decide) h

/-- Settles O28: the signed accessors read the words of the unsigned ones, and each is refused for any of its bytes. -/
theorem signedAccessorsAreTwosComplement : Obligations.SignedAccessorsAreTwosComplement := by
  refine fun s => ⟨fun _ => execGetI8_of_read, fun _ _ => execGetI16_of_read, fun _ _ _ _ => execGetI32_of_read,
    fun h => ⟨?_, ?_, ?_⟩, fun h => ⟨?_, ?_⟩, ?_⟩
  · exact returnRead_of_unwritten 0 (by decide) h
  · exact returnRead_of_unwritten 0 (by decide) h
  · exact returnRead_of_unwritten 0 (by decide) h
  · exact returnRead_of_unwritten 1 (by decide) h
  · exact returnRead_of_unwritten 1 (by decide) h
  · rintro (h | h)
    · exact returnRead_of_unwritten 2 (by decide) h
    · exact returnRead_of_unwritten 3 (by decide) h

/-! ### The string accessor (R98) -/

theorem foldr_consScan_found (l : List Byte) : l.foldr consScan (.found []) = .found l := by
  induction l with
  | nil => rfl
  | cons b l ih => rw [List.foldr_cons, ih]; rfl

theorem scanString_succ_zero {m : Memory} {a : Nat} (n : Nat) (h : m.read a = some 0) :
    scanString m (n + 1) a = .found [] := by
  simp [scanString, h]

theorem scanString_succ_unwritten {m : Memory} {a : Nat} (n : Nat) (h : m.read a = none) :
    scanString m (n + 1) a = .unwritten := by
  simp only [scanString, h]

theorem scanString_succ_ne_zero {m : Memory} {a : Nat} {b : Byte} (n : Nat) (h : m.read a = some b) (hb : b ≠ 0) :
    scanString m (n + 1) a = consScan b (scanString m n (a + 1)) := by
  simp only [scanString, h, if_neg hb]

/-- The scan passes the bytes `l` that hold no zero and goes on behind them. -/
theorem scanString_of_zero_not_mem {m : Memory} {l : List Byte} {a : Nat} (n : Nat) (hl : 0 ∉ l)
    (hread : ∀ k, k < l.length → m.read (a + k) = l[k]?) :
    scanString m (l.length + n) a = l.foldr consScan (scanString m n (a + l.length)) := by
  induction l generalizing a with
  | nil => rw [List.length_nil, Nat.zero_add]; rfl
  | cons b l ih =>
    obtain ⟨hb, hl⟩ := List.ne_and_not_mem_of_not_mem_cons hl
    have hfirst : m.read a = some b := hread 0 (Nat.succ_pos _)
    have hrest : ∀ k, k < l.length → m.read (a + 1 + k) = l[k]? := fun k hk => by
      rw [Nat.add_right_comm]
      exact hread (k + 1) (Nat.succ_lt_succ hk)
    rw [List.length_cons, Nat.add_right_comm, scanString_succ_ne_zero _ hfirst hb.symm, ih hl hrest, List.foldr_cons,
      Nat.add_assoc, Nat.add_comm 1]

/-- Settles O29: the scan passes `l`, and what stands behind `l` in the window decides. -/
theorem getStrScansWindow : Obligations.GetStrScansWindow := by
  intro s l hl hread
  have hscan (n : Nat) := scanString_of_zero_not_mem (m := s.buf) n hl hread
  refine ⟨fun hlen h => ?_, fun hlen => ?_, fun hlen h => ?_⟩
  · obtain ⟨n, hn⟩ := Nat.exists_eq_add_of_lt hlen
    have hfound : scanString s.buf Config.strWin Config.dataOff = .found l := by
      rw [Config.strWin, hn, Nat.add_assoc, hscan, scanString_succ_zero n h, foldr_consScan_found]
    simp only [exec, execGetStr, hfound, State.withOut]
  · have hnoZero : scanString s.buf Config.strWin Config.dataOff = .noZero := by
      rw [Config.strWin, ← hlen, ← Nat.add_zero l.length, hscan, scanString, List.foldr_fixed' fun _ => rfl]
    simp only [exec, execGetStr, hnoZero, State.withOut]
  · obtain ⟨n, hn⟩ := Nat.exists_eq_add_of_lt hlen
    have hunwritten : scanString s.buf Config.strWin Config.dataOff = .unwritten := by
      rw [Config.strWin, hn, Nat.add_assoc, hscan, scanString_succ_unwritten n h, List.foldr_fixed' fun _ => rfl]
    simp only [exec, execGetStr, hunwritten]

/-! ### The data accessor (R99) -/

theorem execGetData_of_gt {n : Nat} (s : State) (h : 1024 < 4 + n) : execGetData n s = .refused (.beyondBuffer n) :=
  if_pos h

theorem execGetData_of_unwritten {s : State} {n k : Nat} (hn : 4 + n ≤ 1024) (hk : k < n)
    (h : s.buf.read (4 + k) = none) : execGetData n s = .refused .unwrittenByte := by
  simp only [execGetData, if_neg (Nat.not_lt.2 hn), Memory.readRange_eq_none hk h]

/-- Settles O30. -/
theorem getDataCopiesBytes : Obligations.GetDataCopiesBytes := by
  refine fun s n => ⟨?_, ?_, execGetData_of_gt s⟩
  · rintro l rfl hn hread
    exact execGetData_of_readRange hn (Memory.readRange_eq_some.2 ⟨rfl, hread⟩)
  · rintro hn ⟨k, hk, h⟩
    exact execGetData_of_unwritten hn hk h

/-- Settles O31: a copy that stays inside the buffer reads index 1022, which is never written. -/
theorem getDataAbove1018IsRefused : Obligations.GetDataAbove1018IsRefused := by
  intro s n hinv hn
  by_cases hcap : 1024 < 4 + n
  · exact ⟨_, execGetData_of_gt s hcap⟩
  · exact ⟨_, execGetData_of_unwritten (Nat.not_lt.1 hcap) hn (hinv.topUnwritten 1022 le_rfl)⟩

/-! ### Accessors read the buffer alone (R90) -/

/-- Where two states have the same buffer, `f` answers both with one result and nothing else changed, or refuses both
for one reason. -/
def BufferOnly (f : State → Answer State) : Prop :=
  ∀ s s' : State, s.buf = s'.buf →
    (∃ r, f s = .next (s.withOut r) ∧ f s' = .next (s'.withOut r)) ∨ ∃ x, f s = .refused x ∧ f s' = .refused x

theorem bufferOnly_returnRead (addr n : Nat) (result : Nat → Result) : BufferOnly (returnRead addr n result) := by
  intro s s' hbuf
  simp only [returnRead, hbuf]
  cases s'.buf.memRead addr n with
  | none => exact .inr ⟨_, rfl, rfl⟩
  | some v => exact .inl ⟨_, rfl, rfl⟩

theorem bufferOnly_execGetStr : BufferOnly execGetStr := by
  intro s s' hbuf
  simp only [execGetStr, hbuf]
  cases scanString s'.buf Config.strWin Config.dataOff with
  | found before => exact .inl ⟨_, rfl, rfl⟩
  | noZero => exact .inl ⟨_, rfl, rfl⟩
  | unwritten => exact .inr ⟨_, rfl, rfl⟩

theorem bufferOnly_execGetData (n : Nat) : BufferOnly (execGetData n) := by
  intro s s' hbuf
  simp only [execGetData, hbuf]
  split
  · exact .inr ⟨_, rfl, rfl⟩
  · cases s'.buf.readRange Config.dataOff n with
    | none => exact .inr ⟨_, rfl, rfl⟩
    | some bytes => exact .inl ⟨_, rfl, rfl⟩

/-- Settles O32: seven accessors hand over a read at a fixed offset; GET.STR and GET.DATA have their own reads. -/
theorem accessorsOnlyReadBuffer : Obligations.AccessorsOnlyReadBuffer := by
  intro i s s' hi
  cases i with
  | getCmd | getU8 | getI8 | getU16 | getI16 | getU32 | getI32 => exact bufferOnly_returnRead _ _ _ s s'
  | getStr => exact bufferOnly_execGetStr s s'
  | getData n => exact bufferOnly_execGetData n s s'
  | reset | feed | crc16 | encode | reservedD | reservedE | reservedF | reservedHigh | feeds | recv | rxStart | rxDrop
  | rxLenLow | rxLenHigh | rxAppend | rxLastOk | rxLastBad | frame => simp at hi

end Sys2Proof.Machine

/-! PROOFS of the family 43_encoder.md: the frame ENCODE builds (R105), the data it refuses (R106), and which of its frames
the parser accepts (R108). -/

namespace Sys2Proof.Machine

/-! ### The fields of the frame (R41, R42, R105) -/

/-- The two bytes of a 16-bit value as numbers, low byte first. -/
theorem halfBytes_eq (v : Half) : halfBytes v = [BitVec.ofNat 8 (v.toNat % 256), BitVec.ofNat 8 (v.toNat / 256)] := by
  have h := countBytes_eq (Nat.le_of_lt_succ v.isLt)
  rwa [countBytes, BitVec.ofNat_toNat, BitVec.setWidth_eq] at h

section
variable (cmd : Byte) (w : Bool) {data : List Byte} (h : data.length + 1 ≤ Config.lenMax)
include h

theorem requestFlags_toNat : (requestFlags w data).toNat = (data.length + 1) * 64 + w.toNat := by
  rw [requestFlags_eq, flagsWord_toNat h]
  cases w <;> simp <;> omega

theorem frameHead_eq :
    frameHead cmd w data = [0xAA, BitVec.ofNat 8 (((data.length + 1) * 64 + w.toNat) % 256),
      BitVec.ofNat 8 (((data.length + 1) * 64 + w.toNat) / 256), cmd] ++ data := by
  have hflags := halfBytes_eq (requestFlags w data)
  rw [requestFlags_toNat w h] at hflags
  show Config.start :: (halfBytes (requestFlags w data) ++ cmd :: data) = _
  rw [hflags]
  rfl

theorem lengthField_encodeFrame :
    lengthField ((encodeFrame cmd w data).getD 1 0) ((encodeFrame cmd w data).getD 2 0) = data.length + 1 := by
  have hfield := lengthField_flagsWord h 0 w
  rwa [← requestFlags_eq] at hfield

theorem reservedBits_encodeFrame : reservedBits ((encodeFrame cmd w data).getD 1 0) = 0 := by
  have hbits := reservedBits_flagsWord h 0 w
  rwa [← requestFlags_eq] at hbits

end

/-! ### Which frames the parser accepts (R50, R108) -/

theorem wellFormedFrame_encodeFrame (cmd : Byte) (w : Bool) {data : List Byte} (h : data.length ≤ 1016) :
    wellFormedFrame (encodeFrame cmd w data) = true := by
  have hmax : data.length + 1 ≤ Config.lenMax := by simp only [Config.lenMax]; omega
  simp only [wellFormedFrame, Bool.and_eq_true, decide_eq_true_eq]
  refine ⟨⟨validFrame_encodeFrame cmd w h, ?_⟩, reservedBits_encodeFrame cmd w hmax⟩
  rw [lengthField_encodeFrame cmd w hmax]
  exact Nat.le_add_left 1 _

/-- The length field is right, but the parser's guard lets through 1017 at most. -/
theorem validFrame_encodeFrame_of_gt (cmd : Byte) (w : Bool) {data : List Byte} (h : 1016 < data.length)
    (hmax : data.length + 1 ≤ Config.lenMax) : validFrame (encodeFrame cmd w data) = false := by
  refine Bool.eq_false_of_not_eq_true fun hvalid => ?_
  have hbound := (validFrame_iff.1 hvalid).1.bound
  rw [lengthField_encodeFrame cmd w hmax] at hbound
  omega

/-- Settles O23. -/
theorem encodedFrameIsWellFormed : Obligations.EncodedFrameIsWellFormed :=
  fun cmd w _ => ⟨wellFormedFrame_encodeFrame cmd w,
    fun hgt hle => validFrame_encodeFrame_of_gt cmd w hgt (Nat.succ_le_succ hle)⟩

/-! ### The operation (R53, R105, R106) -/

/-- ENCODE in the operation stream, its count written out as numbers (R53). -/
theorem decodeOp_encode (cmd : Byte) (w : Bool) {data : List Byte} (rest : List Byte) (h : data.length ≤ maxCount) :
    decodeOp ([0x03, cmd, if w then 0x01 else 0x00, BitVec.ofNat 8 (data.length % 256),
      BitVec.ofNat 8 (data.length / 256)] ++ data ++ rest) = .ok (.encode cmd w data, rest) := by
  have hops := decodeEncode_counted cmd w rest h
  rw [countBytes_eq h] at hops
  exact hops

theorem execEncode_of_gt (cmd : Byte) (w : Bool) {data : List Byte} (s : State)
    (h : Config.lenMax < data.length + 1) : execEncode cmd w data s = .refused (.dataTooLong data.length) :=
  if_neg (Nat.not_le.2 h)

/-- Settles O21: the head and the frame are the model's own, with their 16-bit fields read as numbers. -/
theorem encodeBuildsFrame : Obligations.EncodeBuildsFrame := by
  intro s cmd w data hdata
  have hmax : data.length + 1 ≤ Config.lenMax := Nat.succ_le_succ hdata
  have hframe : encodeFrame cmd w data = frameHead cmd w data ++
      [BitVec.ofNat 8 ((crc16 (frameHead cmd w data)).toNat % 256),
        BitVec.ofNat 8 ((crc16 (frameHead cmd w data)).toNat / 256)] := by
    rw [encodeFrame, halfBytes_eq]
  exact ⟨frameHead cmd w data, encodeFrame cmd w data, frameHead_eq cmd w hmax, hframe,
    encodeFrame_length cmd w data, execEncode_of_le cmd w s hmax, wellFormedFrame_encodeFrame cmd w,
    fun rest => decodeOp_encode cmd w rest (hdata.trans (by decide)), by decide⟩

/-- Settles O22. -/
theorem encodeRefusesLongData : Obligations.EncodeRefusesLongData :=
  fun s cmd w _ h => execEncode_of_gt cmd w s (Nat.succ_lt_succ h)

end Sys2Proof.Machine
